-- ==== Sys2Proof/Word.lean ====
section
/-! DEFINITION. The word of the machine and the word mask (spec/00_scope.md R7, R9). -/

namespace Sys2Proof

/-- A word: an unsigned 8-bit value (R7, R11). -/
abbrev Word := BitVec 8

/-- The word mask `wm` of R9: the remainder of any integer modulo 256, never negative. -/
def wm (v : Int) : Word := BitVec.ofInt 8 v

end Sys2Proof
end

