-- ==== Sys2Proof/Config.lean ====
section
/-! DEFINITION. The parameters of spec/00_scope.md R6, at BIT_COUNT = 8 (decision D1). The operation table, which
R34 also calls configuration, stands in Sys2Proof/Decode.lean. -/

namespace Sys2Proof

namespace Config

/-- BIT_COUNT (R6, decision D1). -/
def bitCount : Nat := 8

/-- WORD_SIZE = 2^BIT_COUNT (R6). -/
def wordSize : Nat := 2 ^ bitCount

/-- WORD_MASK = WORD_SIZE - 1, the all-ones word (R6, R10). -/
def wordMask : Word := 0xFF

/-- MEM_SIZE, the number of words of memory (R6, R31). -/
def memSize : Nat := wordSize

/-- NREG, the number of registers (R6, R21). -/
def nreg : Nat := bitCount

/-- STACK_TOP, the reset value of SP (R6, R35, decision D5). -/
def stackTop : Word := 0xF4

end Config

/-- The name of a register: an index 0 .. 7 (R21). -/
abbrev RegIdx := Fin 8

namespace RegIdx

/-- SP_INDEX: the stack pointer is x[7] (R6, R22, decision D4). -/
abbrev sp : RegIdx := 7

/-- IS_INDEX: the interrupt status register is x[6], plain storage (R6, R22, R23). -/
abbrev is : RegIdx := 6

/-- IM_INDEX: the interrupt mask register is x[5], plain storage (R6, R22, R23). -/
abbrev im : RegIdx := 5

end RegIdx

end Sys2Proof
end

