-- ==== Sys2Proof/Machine/Bitfield.lean ====
section
/-! DEFINITION. The bit-field primitives of spec/00_scope.md R10: functions over integers, and each of them on words, where the
machine uses it on an opcode or on FL. -/

namespace Sys2Proof

/-! ## Over integers (R10). A negative integer has the infinitely many ones of two's complement (log 11). -/

namespace Bits

/-- Bit `k` of an integer. -/
def bit (v : Int) (k : Nat) : Bool := (v >>> k) % 2 == 1

/-- `a & b`. -/
def and : Int → Int → Int
  | .ofNat m, .ofNat n => .ofNat (m &&& n)
  | .ofNat m, .negSucc n => .ofNat (m ^^^ (m &&& n))
  | .negSucc m, .ofNat n => .ofNat (n ^^^ (n &&& m))
  | .negSucc m, .negSucc n => .negSucc (m ||| n)

/-- `a | b`. -/
def or (a b : Int) : Int := ~~~(and (~~~a) (~~~b))

/-- `a ^ b`. -/
def xor : Int → Int → Int
  | .ofNat m, .ofNat n => .ofNat (m ^^^ n)
  | .ofNat m, .negSucc n => .negSucc (m ^^^ n)
  | .negSucc m, .ofNat n => .negSucc (m ^^^ n)
  | .negSucc m, .negSucc n => .ofNat (m ^^^ n)

/-- WORD_MASK as an integer, the mask of a call that gives none (R6, R10). -/
def wordMask : Int := Config.wordMask.toNat

/-- `block(width, shift)`: a contiguous mask of `width` ones starting at bit `shift`. -/
def block (width shift : Nat) : Int := (((1 : Int) <<< width) - 1) <<< shift

/-- `unblock(width, shift, bits)`: the field of `width` bits at bit `shift`, moved down to bit 0. -/
def unblock (width shift : Nat) (bits : Int) : Int := and (bits >>> shift) (((1 : Int) <<< width) - 1)

/-- `and_mask(bits, mask)`. -/
def andMask (bits : Int) (mask : Int := wordMask) : Int := and bits mask

/-- `or_mask(bits, mask)`. -/
def orMask (bits : Int) (mask : Int := wordMask) : Int := or bits mask

/-- `xor_mask(bits, mask)`. -/
def xorMask (bits : Int) (mask : Int := wordMask) : Int := xor bits mask

/-- `is_masked_by(bits, mask)`: every bit of the mask is set. -/
def isMaskedBy (bits : Int) (mask : Int := wordMask) : Bool := and bits mask == mask

/-- `bits & ~mask & WORD_MASK`: the second arm of `toggle_masked`, and the clear of spec/10_state.md R30. -/
def clearMask (bits : Int) (mask : Int := wordMask) : Int := and (and bits (~~~mask)) wordMask

/-- `toggle_masked(on, bits, mask)`: sets the bits of the mask when `on`; when not, clears them and all above the word. -/
def toggleMasked (on : Bool) (bits : Int) (mask : Int := wordMask) : Int :=
  if on then or bits mask else clearMask bits mask

end Bits

/-! ## On words: the integer primitive of the word's value, and the word of its result -/

/-- `block(width, shift)`, the part of the mask that lies in a word. -/
def block (width shift : Nat) : Word := wm (Bits.block width shift)

/-- `and_mask(bits, mask)`; an omitted mask is the full word. -/
def andMask (bits : Word) (mask : Word := Config.wordMask) : Word := wm (Bits.andMask bits.toNat mask.toNat)

/-- `or_mask(bits, mask)`. -/
def orMask (bits : Word) (mask : Word := Config.wordMask) : Word := wm (Bits.orMask bits.toNat mask.toNat)

/-- `xor_mask(bits, mask)`. -/
def xorMask (bits : Word) (mask : Word := Config.wordMask) : Word := wm (Bits.xorMask bits.toNat mask.toNat)

/-- `unblock(width, shift, bits)`. -/
def unblock (width shift : Nat) (bits : Word) : Word := wm (Bits.unblock width shift bits.toNat)

/-- `is_masked_by(bits, mask)`. -/
def isMaskedBy (bits : Word) (mask : Word := Config.wordMask) : Bool := Bits.isMaskedBy bits.toNat mask.toNat

/-- The clear of R30. -/
def clearMask (bits : Word) (mask : Word := Config.wordMask) : Word := wm (Bits.clearMask bits.toNat mask.toNat)

/-- `toggle_masked(on, bits, mask)`. -/
def toggleMasked (on : Bool) (bits : Word) (mask : Word := Config.wordMask) : Word :=
  wm (Bits.toggleMasked on bits.toNat mask.toNat)

end Sys2Proof
end

