-- ==== Sys2Proof/Machine/Flags.lean ====
section
/-! DEFINITION. The flags register: its masks, primitives, queries, and what COMPARE writes (spec/10_state.md R27 .. R30,
spec/44_alu.md R141). -/

namespace Sys2Proof

namespace Machine

namespace Flags

/-- EQ, bit 0 (R27). -/
def eqMask : Word := block 1 0

/-- GT, bit 1 (R27). -/
def gtMask : Word := block 1 1

/-- LT, bit 2 (R27). -/
def ltMask : Word := block 1 2

/-! ## Primitives (R30) -/

/-- Set: `or_mask(FL, m)`. -/
def set (fl m : Word) : Word := orMask fl m

/-- Clear: `FL & ~m & 0xFF`. -/
def clear (fl m : Word) : Word := clearMask fl m

/-- Test: `is_masked_by(FL, m)`. -/
def test (fl m : Word) : Bool := isMaskedBy fl m

/-! ## Queries (R29): a composite query is true when ANY of its bits is set (decision D14). -/

def eq (fl : Word) : Bool := test fl eqMask
def gt (fl : Word) : Bool := test fl gtMask
def lt (fl : Word) : Bool := test fl ltMask
def neq (fl : Word) : Bool := lt fl || gt fl
def ngt (fl : Word) : Bool := lt fl || eq fl
def nlt (fl : Word) : Bool := eq fl || gt fl

/-- What COMPARE leaves in FL: LT, then EQ, then GT, each set or cleared as its unsigned comparison says (R141, conflict C5). -/
def compare (a b fl : Word) : Word :=
  let fl := toggleMasked (decide (a.toNat < b.toNat)) fl ltMask
  let fl := toggleMasked (decide (a.toNat = b.toNat)) fl eqMask
  toggleMasked (decide (b.toNat < a.toNat)) fl gtMask

end Flags

end Machine

end Sys2Proof
end

