-- ==== Sys2Proof/Syntax.lean ====
section
/-! DEFINITION. The instructions: one constructor per row of spec/opcode_table.json, in the table's order. -/

namespace Sys2Proof

/-- An instruction with its operand words.

A register operand is the WHOLE operand word (spec/30_encoding.md R64): a value of 8 or more is a legal encoding of an
instruction that stops with REGISTER_OUT_OF_RANGE when it is executed (R25), so it stays a word here and
`Instr.wf` says which instructions name registers that exist. The four rows without a handler hold no operand, because
their operands are not read and their format is not architectural (R60, R95). -/
inductive Instr where
  /-- NOP, 0x00 (R93). -/
  | nop
  /-- HALT, 0x01 (R94). -/
  | hlt
  /-- RETURN_FROM_CALL, 0x11 (R111). -/
  | ret
  /-- IRET, 0x13, listed without a handler (R95). -/
  | iret
  /-- PUSH, 0x45 (R101). -/
  | push (a : Word)
  /-- POP, 0x46 (R102). -/
  | pop (a : Word)
  /-- PRINT_NUMBER, 0x47 (R121). -/
  | prn (a : Word)
  /-- PRINT_ALPHA, 0x48 (R122). -/
  | pra (a : Word)
  /-- CALL, 0x50 (R110). -/
  | call (a : Word)
  /-- INT, 0x52, listed without a handler (R95). -/
  | int
  /-- JMP, 0x54 (R161). -/
  | jmp (a : Word)
  /-- JEQ, 0x55 (R162). -/
  | jeq (a : Word)
  /-- JNE, 0x56 (R163). -/
  | jne (a : Word)
  /-- JGT, 0x57 (R164). -/
  | jgt (a : Word)
  /-- JLT, 0x58 (R165). -/
  | jlt (a : Word)
  /-- JLE, 0x59 (R166). -/
  | jle (a : Word)
  /-- JGE, 0x5A (R167). -/
  | jge (a : Word)
  /-- INCREMENT, 0x65 (R133). -/
  | inc (a : Word)
  /-- DECREMENT, 0x66 (R134). -/
  | dec (a : Word)
  /-- BITWISE_NOT, 0x69 (R135). -/
  | not (a : Word)
  /-- LOAD_IMMEDIATE, 0x82 (R100). -/
  | ldi (a imm : Word)
  /-- LD, 0x83, listed without a handler (R95). -/
  | ld
  /-- ST, 0x84, listed without a handler (R95). -/
  | st
  /-- ADD, 0xA0 (R136). -/
  | add (a b : Word)
  /-- SUBTRACT, 0xA1 (R137). -/
  | sub (a b : Word)
  /-- MULTIPLY, 0xA2 (R138). -/
  | mul (a b : Word)
  /-- DIVIDE, 0xA3 (R139). -/
  | div (a b : Word)
  /-- MODULO, 0xA4 (R140). -/
  | mod (a b : Word)
  /-- COMPARE, 0xA7 (R141). -/
  | cmp (a b : Word)
  /-- BITWISE_AND, 0xA8 (R142). -/
  | and (a b : Word)
  /-- BITWISE_OR, 0xAA (R143). -/
  | or (a b : Word)
  /-- BITWISE_XOR, 0xAB (R144). -/
  | xor (a b : Word)
  /-- SHIFT_LEFT, 0xAC (R145). -/
  | shl (a b : Word)
  /-- SHIFT_RIGHT, 0xAD (R146). -/
  | shr (a b : Word)
  deriving DecidableEq, Repr

end Sys2Proof
end

