-- ==== Sys2Proof/Decode.lean ====
section
/-! DEFINITION. The operation table, the decoder, the encoder (spec/30_encoding.md R60 .. R71). -/

namespace Sys2Proof

/-! ## The opcode map (R66). The values marked LS-8 there are general knowledge, log 7. -/

namespace Opcode

def nop : Word := 0x00
def hlt : Word := 0x01
def ret : Word := 0x11
def iret : Word := 0x13
def push : Word := 0x45
def pop : Word := 0x46
def prn : Word := 0x47
def pra : Word := 0x48
def call : Word := 0x50
def int : Word := 0x52
def jmp : Word := 0x54
def jeq : Word := 0x55
def jne : Word := 0x56
def jgt : Word := 0x57
def jlt : Word := 0x58
def jle : Word := 0x59
def jge : Word := 0x5A
def inc : Word := 0x65
def dec : Word := 0x66
def not : Word := 0x69
def ldi : Word := 0x82
def ld : Word := 0x83
def st : Word := 0x84
def add : Word := 0xA0
def sub : Word := 0xA1
def mul : Word := 0xA2
def div : Word := 0xA3
def mod : Word := 0xA4
def cmp : Word := 0xA7
def and : Word := 0xA8
def or : Word := 0xAA
def xor : Word := 0xAB
def shl : Word := 0xAC
def shr : Word := 0xAD

/-- ARGS, bits 7:6: the number of operand words (R61, R62). -/
def args (op : Word) : Nat := (unblock 2 6 op).toNat

/-- The ALU marker, bit 5 (R61, R62). -/
def usesAlu (op : Word) : Bool := isMaskedBy op (block 1 5)

/-- The SETS_POINTER marker, bit 4: the handler sets the pc itself (R61, R62). -/
def setsPointer (op : Word) : Bool := isMaskedBy op (block 1 4)

/-- IDENTIFIER, bits 3:0 (R61, R62). -/
def identifier (op : Word) : Word := unblock 4 0 op

/-- The opcode's length in words, `1 + args` (R60, R71). -/
def length (op : Word) : Nat := 1 + args op

end Opcode

/-- The operand words an instruction reads, by format (R60), and the instruction they make: the handler map of
spec/40_sequencer.md R96. -/
inductive Format where
  /-- Listed, no handler bound: the cycle stops before any operand is read (R68, R88, R95). -/
  | unbound (i : Instr)
  /-- F0: no operand. -/
  | f0 (i : Instr)
  /-- F1R: one register index. -/
  | f1r (mk : Word → Instr)
  /-- F2RR: two register indices. -/
  | f2rr (mk : Word → Word → Instr)
  /-- F2RI: a register index and an immediate. -/
  | f2ri (mk : Word → Word → Instr)

/-- A row of the operation table (R66): the opcode, the source's name where it gives one, the short code, and the format
with the handler it is bound to. -/
structure Row where
  opcode : Word
  name : Option String
  code : String
  format : Format

/-- The operation table (R34, R66), in ascending opcode order. It is fixed: no instruction or host call changes it. -/
def operationTable : List Row :=
  [ ⟨Opcode.nop, some "NOP", "NOP", .f0 .nop⟩,
    ⟨Opcode.hlt, some "HALT", "HLT", .f0 .hlt⟩,
    ⟨Opcode.ret, some "RETURN_FROM_CALL", "RET", .f0 .ret⟩,
    ⟨Opcode.iret, none, "IRET", .unbound .iret⟩,
    ⟨Opcode.push, some "PUSH", "PUSH", .f1r .push⟩,
    ⟨Opcode.pop, some "POP", "POP", .f1r .pop⟩,
    ⟨Opcode.prn, some "PRINT_NUMBER", "PRN", .f1r .prn⟩,
    ⟨Opcode.pra, some "PRINT_ALPHA", "PRA", .f1r .pra⟩,
    ⟨Opcode.call, some "CALL", "CALL", .f1r .call⟩,
    ⟨Opcode.int, none, "INT", .unbound .int⟩,
    ⟨Opcode.jmp, some "JMP", "JMP", .f1r .jmp⟩,
    ⟨Opcode.jeq, some "JEQ", "JEQ", .f1r .jeq⟩ ] ++
  [ ⟨Opcode.jne, some "JNE", "JNE", .f1r .jne⟩,
    ⟨Opcode.jgt, some "JGT", "JGT", .f1r .jgt⟩,
    ⟨Opcode.jlt, some "JLT", "JLT", .f1r .jlt⟩,
    ⟨Opcode.jle, some "JLE", "JLE", .f1r .jle⟩,
    ⟨Opcode.jge, some "JGE", "JGE", .f1r .jge⟩,
    ⟨Opcode.inc, some "INCREMENT", "INC", .f1r .inc⟩,
    ⟨Opcode.dec, some "DECREMENT", "DEC", .f1r .dec⟩,
    ⟨Opcode.not, some "BITWISE_NOT", "NOT", .f1r .not⟩,
    ⟨Opcode.ldi, some "LOAD_IMMEDIATE", "LDI", .f2ri .ldi⟩,
    ⟨Opcode.ld, none, "LD", .unbound .ld⟩,
    ⟨Opcode.st, none, "ST", .unbound .st⟩ ] ++
  [ ⟨Opcode.add, some "ADD", "ADD", .f2rr .add⟩,
    ⟨Opcode.sub, some "SUBTRACT", "SUB", .f2rr .sub⟩,
    ⟨Opcode.mul, some "MULTIPLY", "MUL", .f2rr .mul⟩,
    ⟨Opcode.div, some "DIVIDE", "DIV", .f2rr .div⟩,
    ⟨Opcode.mod, some "MODULO", "MOD", .f2rr .mod⟩,
    ⟨Opcode.cmp, some "COMPARE", "CMP", .f2rr .cmp⟩,
    ⟨Opcode.and, some "BITWISE_AND", "AND", .f2rr .and⟩,
    ⟨Opcode.or, some "BITWISE_OR", "OR", .f2rr .or⟩,
    ⟨Opcode.xor, some "BITWISE_XOR", "XOR", .f2rr .xor⟩,
    ⟨Opcode.shl, some "SHIFT_LEFT", "SHL", .f2rr .shl⟩,
    ⟨Opcode.shr, some "SHIFT_RIGHT", "SHR", .f2rr .shr⟩ ]

/-- The row of an opcode word, found by the whole word (R67). -/
def lookup (op : Word) : Option Row := operationTable.find? (fun r => r.opcode == op)

/-- The decoder's `contains` (R67): the word is listed. -/
def contains (op : Word) : Bool := (lookup op).isSome

/-- The descriptor the decoder returns for a listed opcode (R11, R62). -/
structure Descriptor where
  opcode : Word
  name : Option String
  codeName : String
  args : Nat
  usesAlu : Bool
  setsPointer : Bool
  identifier : Word
  deriving DecidableEq, Repr

/-- The descriptor of a row, its fields read from the opcode's bits alone (R62). -/
def Row.descriptor (r : Row) : Descriptor :=
  { opcode := r.opcode, name := r.name, codeName := r.code, args := Opcode.args r.opcode,
    usesAlu := Opcode.usesAlu r.opcode, setsPointer := Opcode.setsPointer r.opcode,
    identifier := Opcode.identifier r.opcode }

/-- The decoder's `get` (R67): the descriptor of a listed opcode; none is `UnknownOpcode`. -/
def getDescriptor (op : Word) : Option Descriptor := (lookup op).map Row.descriptor

/-- A handler is bound to the row (R68, R88). -/
def Row.implemented (r : Row) : Bool :=
  match r.format with
  | .unbound _ => false
  | .f0 _ | .f1r _ | .f2rr _ | .f2ri _ => true

/-! ## Decoding -/

/-- Why a list of words decodes to no instruction. -/
inductive DecodeError where
  /-- The first word is not a listed opcode (R67, R69). -/
  | unknownOpcode (op : Word)
  /-- The list ends before the word at this index, 0 being the opcode's (R60). -/
  | truncated (index : Nat)
  deriving DecidableEq, Repr

/-- The instruction of a format and the words after its opcode, with the words left over. -/
def Format.assemble : Format → List Word → Except DecodeError (Instr × List Word)
  | .unbound i, ws => .ok (i, ws)
  | .f0 i, ws => .ok (i, ws)
  | .f1r mk, a :: ws => .ok (mk a, ws)
  | .f1r _, [] => .error (.truncated 1)
  | .f2rr mk, a :: b :: ws => .ok (mk a b, ws)
  | .f2rr _, [_] => .error (.truncated 2)
  | .f2rr _, [] => .error (.truncated 1)
  | .f2ri mk, a :: imm :: ws => .ok (mk a imm, ws)
  | .f2ri _, [_] => .error (.truncated 2)
  | .f2ri _, [] => .error (.truncated 1)

/-- The decoder, total on any words: the first instruction and the words after it, or why there is none (R60, R67, R71). -/
def decode : List Word → Except DecodeError (Instr × List Word)
  | [] => .error (.truncated 0)
  | op :: ws =>
    match lookup op with
    | none => .error (.unknownOpcode op)
    | some r => r.format.assemble ws

/-! ## Encoding -/

/-- The opcode word of an instruction (R66). -/
def Instr.opcode : Instr → Word
  | .nop => Opcode.nop
  | .hlt => Opcode.hlt
  | .ret => Opcode.ret
  | .iret => Opcode.iret
  | .push _ => Opcode.push
  | .pop _ => Opcode.pop
  | .prn _ => Opcode.prn
  | .pra _ => Opcode.pra
  | .call _ => Opcode.call
  | .int => Opcode.int
  | .jmp _ => Opcode.jmp
  | .jeq _ => Opcode.jeq
  | .jne _ => Opcode.jne
  | .jgt _ => Opcode.jgt
  | .jlt _ => Opcode.jlt
  | .jle _ => Opcode.jle
  | .jge _ => Opcode.jge
  | .inc _ => Opcode.inc
  | .dec _ => Opcode.dec
  | .not _ => Opcode.not
  | .ldi _ _ => Opcode.ldi
  | .ld => Opcode.ld
  | .st => Opcode.st
  | .add _ _ => Opcode.add
  | .sub _ _ => Opcode.sub
  | .mul _ _ => Opcode.mul
  | .div _ _ => Opcode.div
  | .mod _ _ => Opcode.mod
  | .cmp _ _ => Opcode.cmp
  | .and _ _ => Opcode.and
  | .or _ _ => Opcode.or
  | .xor _ _ => Opcode.xor
  | .shl _ _ => Opcode.shl
  | .shr _ _ => Opcode.shr

/-- The operand words of an instruction, in ascending address order (R43, R60, R65). -/
def Instr.operands : Instr → List Word
  | .nop | .hlt | .ret | .iret | .int | .ld | .st => []
  | .push a | .pop a | .prn a | .pra a | .call a => [a]
  | .jmp a | .jeq a | .jne a | .jgt a | .jlt a | .jle a | .jge a => [a]
  | .inc a | .dec a | .not a => [a]
  | .ldi a imm => [a, imm]
  | .add a b | .sub a b | .mul a b | .div a b | .mod a b | .cmp a b => [a, b]
  | .and a b | .or a b | .xor a b | .shl a b | .shr a b => [a, b]

/-- The words of an instruction: its opcode, then its operands (R60). -/
def encode (i : Instr) : List Word := i.opcode :: i.operands

/-! ## Words as spec/opcode_table.json numbers them -/

/-- The longest instruction, in words (R6). -/
def maxWords : Nat := 3

/-- The first `n` words of a number whose bits count up from the least significant bit of the first word. -/
def wordsOf : Nat → Nat → List Word
  | 0, _ => []
  | n + 1, w => BitVec.ofNat 8 w :: wordsOf n (w / 256)

/-- The words of an instruction whose bits below `nbits` are `w`, every bit above being 0, laid out in ascending address
order. -/
def tableWords (nbits w : Nat) : List Word := wordsOf maxWords (w % 2 ^ nbits)

/-- The instruction the decoder reads from those words; none where it refuses them. -/
def decodeTableWord (nbits w : Nat) : Option Instr :=
  match decode (tableWords nbits w) with
  | .ok (i, _) => some i
  | .error _ => none

end Sys2Proof
end

