-- ==== Sys2Proof/Machine/State.lean ====
section
/-! DEFINITION. The state of one core (spec/10_state.md R20), its reset value (R35), and the reasons a call can end in a
fault or a refusal of the model's own. -/

namespace Sys2Proof

namespace Machine

/-- The run state (R32, spec/40_sequencer.md R80). -/
inductive RunState where
  | stopped
  | running
  deriving DecidableEq, Repr

/-- The halt reason: why the core last entered STOPPED (R32, spec/60_exceptions.md R181). -/
inductive HaltReason where
  /-- NONE: the core has not stopped since the last START or reset. -/
  | none
  /-- HALT: the HALT instruction. -/
  | halt
  /-- UNKNOWN_OPCODE: a fetched word is not listed. -/
  | unknownOpcode
  /-- UNIMPLEMENTED_OPERATION: a listed opcode has no handler. -/
  | unimplementedOperation
  /-- MEMORY_OUT_OF_RANGE: a fetch or operand read at an address of 256 or more. -/
  | memoryOutOfRange
  /-- REGISTER_OUT_OF_RANGE: a register operand word of 8 or more. -/
  | registerOutOfRange
  /-- DIVISION_BY_ZERO: DIVIDE or MODULO with divisor 0. -/
  | divisionByZero
  /-- EXTERNAL_STOP: the host's STOP. -/
  | externalStop
  deriving DecidableEq, Repr

/-- The kind of an output event (spec/43_output.md R120). -/
inductive OutKind where
  | number
  | alpha
  deriving DecidableEq, Repr

/-- One output event (R33, R120). -/
structure OutEvent where
  kind : OutKind
  value : Word
  deriving DecidableEq, Repr

/-- Memory: the pairs of an address and its word, addresses strictly rising and below 256, no word 0. An address that is
not listed reads as 0, the value R35 gives every word at reset. -/
abbrev Memory := List Host.Cell

/-- The state of one core (R20). R36: there is no other. -/
structure State where
  /-- `x[0..7]` (R21); x[7] is SP, x[6] IS, x[5] IM (R22). -/
  regs : Vector Word 8
  /-- `FL` (R27): EQ bit 0, GT bit 1, LT bit 2. -/
  fl : Word
  /-- `pc` (R26): not word-masked. -/
  pc : Nat
  /-- `M[0..255]` (R31). -/
  memory : Memory
  /-- `run_state` (R32). -/
  runState : RunState
  /-- `halt_reason` (R32). -/
  haltReason : HaltReason
  /-- `halt_info` (R32). -/
  haltInfo : Option Nat
  /-- `out` (R33), oldest event first. -/
  out : List OutEvent
  deriving DecidableEq, Repr

/-- The model's own faults. No instruction ends in one: a fault of the SPEC is a next state (spec/60_exceptions.md R180, log 1).
-/
inductive Fault where
  /-- INSPECT of a register that does not exist, raised by `inspectRegister`. SAFE: the spec says nothing of it (log 13). -/
  | noSuchRegister (index : Nat)
  /-- INSPECT of a memory word that does not exist, raised by `inspectWord`. SAFE: the spec says nothing of it (log 13). -/
  | noSuchWord (addr : Nat)
  deriving DecidableEq, Repr

/-- The refusals. -/
inductive Refusal where
  /-- An instruction without a meaning, raised by `exec`'s arm for it. SAFE: nothing is claimed of it. No arm raises it. -/
  | notModelled (mnemonic : String)
  /-- A LOAD of more than 256 words, raised by `hostLoad`. SAFE: spec/70_reset_and_hazards.md R202 says the transaction is refused
  as a whole. -/
  | imageTooLong (words : Nat)
  deriving DecidableEq, Repr

/-- The state after reset (R35, spec/70_reset_and_hazards.md R200). -/
def State.reset : State :=
  { regs := #v[0, 0, 0, 0, 0, 0, 0, Config.stackTop]
    fl := 0
    pc := 0
    memory := []
    runState := .stopped
    haltReason := .none
    haltInfo := none
    out := [] }

end Machine

end Sys2Proof
end

