-- ==== Sys2Proof/Machine/Memory.lean ====
section
/-! DEFINITION. The memory list: reading, writing and its canonical form (spec/10_state.md R31, R35). -/

namespace Sys2Proof

namespace Machine

/-- What an address that is not listed reads as: the reset value of every memory word (R35). -/
def Memory.unlisted : Word := 0

/-- The word at an address. -/
def Memory.read : Memory → Nat → Word
  | [], _ => Memory.unlisted
  | c :: m, addr => if c.1 = addr then c.2 else Memory.read m addr

/-- The memory without an entry for an address. -/
def Memory.erase (m : Memory) (addr : Nat) : Memory := m.filter (fun c => c.1 != addr)

/-- The memory with one more entry, before the first entry of a higher address. -/
def Memory.insert : Memory → Nat → Word → Memory
  | [], addr, v => [(addr, v)]
  | c :: m, addr, v => if addr < c.1 then (addr, v) :: c :: m else c :: Memory.insert m addr v

/-- The memory with one word stored. Storing what an unlisted address reads as leaves no entry. -/
def Memory.write (m : Memory) (addr : Nat) (v : Word) : Memory :=
  if v = Memory.unlisted then m.erase addr else (m.erase addr).insert addr v

/-- Every address of the list is above a bound, and the list rises. -/
def Memory.risesFrom : Nat → Memory → Bool
  | _, [] => true
  | bound, c :: m => decide (bound ≤ c.1) && Memory.risesFrom (c.1 + 1) m

/-- The canonical form: addresses strictly rising and inside the address space (R31), no entry equal to what an unlisted
address reads as. Equal memories are then equal lists. -/
def Memory.wf (m : Memory) : Bool :=
  Memory.risesFrom 0 m && m.all (fun c => decide (c.1 < Config.memSize) && (c.2 != Memory.unlisted))

/-- The memory with words stored at ascending addresses from `addr`; a word that would stand at or above the end of the
address space is not stored. -/
def Memory.writeFrom (m : Memory) : Nat → List Word → Memory
  | _, [] => m
  | addr, w :: ws => Memory.writeFrom (if addr < Config.memSize then m.write addr w else m) (addr + 1) ws

end Machine

end Sys2Proof
end

