-- ==== Sys2Proof/Machine/Ops.lean ====
section
/-! DEFINITION. The named operations over registers, memory, the program pointer, the output history and the run state
(spec/00_scope.md R8), raising a fault and resuming after one. -/

namespace Sys2Proof

namespace Machine

/-! ## Registers (R8, R21, R24). No register is hardwired. -/

/-- `x[i]`. -/
def State.readReg (s : State) (i : RegIdx) : Word := s.regs[i]

/-- `x[i] <- v`. A word is already masked (R24). -/
def State.writeReg (s : State) (i : RegIdx) (v : Word) : State := { s with regs := s.regs.set i v }

/-- `SP`, another name for x[7] (R22). -/
def State.sp (s : State) : Word := s.readReg RegIdx.sp

/-! ## The program pointer, the flags, the output history -/

/-- `pc <- target` (R26). -/
def State.setPc (s : State) (target : Nat) : State := { s with pc := target }

/-- `FL <- v`. -/
def State.setFl (s : State) (v : Word) : State := { s with fl := v }

/-- `emit(kind, v)`: one event, appended to the history (R33, R120). -/
def State.emit (s : State) (kind : OutKind) (v : Word) : State := { s with out := s.out ++ [⟨kind, v⟩] }

/-! ## Halts and faults -/

/-- The cause of a fault: its reason and its info (R181). -/
structure Cause where
  reason : HaltReason
  info : Nat
  deriving DecidableEq, Repr

/-- The numeric codes of the halt reasons (R181). -/
def HaltReason.code : HaltReason → Nat
  | .none => 0
  | .halt => 1
  | .unknownOpcode => 2
  | .unimplementedOperation => 3
  | .memoryOutOfRange => 4
  | .registerOutOfRange => 5
  | .divisionByZero => 6
  | .externalStop => 7

/-- The reasons R181 calls a fault. -/
def HaltReason.isFault : HaltReason → Bool
  | .none | .halt | .externalStop => false
  | .unknownOpcode | .unimplementedOperation | .memoryOutOfRange | .registerOutOfRange | .divisionByZero => true

/-- A transition to STOPPED with its halt record (R32). -/
def State.stop (s : State) (reason : HaltReason) (info : Option Nat) : State :=
  { s with runState := .stopped, haltReason := reason, haltInfo := info }

/-- TAKING A FAULT, `raise Fault(reason, info)` (spec/60_exceptions.md R180): STOPPED with the halt record; every register, FL,
pc, memory word and output keeps its value. There is no vector and nothing is saved elsewhere (R190). -/
def State.raiseFault (s : State) (c : Cause) : State := s.stop c.reason (some c.info)

/-- GOING ON after a fault or a halt: the host's START (spec/40_sequencer.md R81, R191). There is no instruction that returns
(R191). START while RUNNING has no effect. -/
def State.start (s : State) : State :=
  match s.runState with
  | .running => s
  | .stopped => { s with runState := .running, haltReason := .none, haltInfo := none }

/-- The host's STOP (R82): no effect while STOPPED. -/
def State.stopExternally (s : State) : State :=
  match s.runState with
  | .running => s.stop .externalStop none
  | .stopped => s

/-- Goes on with a value, or takes the fault in the state before the run-cycle `s` (R8, R187). -/
def orFault {α : Type} (s : State) (r : Except Cause α) (k : α → Host.Outcome State Fault Refusal) :
    Host.Outcome State Fault Refusal :=
  match r with
  | .ok v => k v
  | .error c => .next (s.raiseFault c)

/-! ## Memory (spec/20_memory.md R42) -/

/-- The word at an address, without the range check. -/
def State.readWord (s : State) (addr : Nat) : Word := s.memory.read addr

/-- One word stored at an address, without the range check. -/
def State.writeWord (s : State) (addr : Nat) (v : Word) : State := { s with memory := s.memory.write addr v }

/-- The fault of an access at an address of 256 or more (R182). -/
def outOfRange (addr : Nat) : Cause := ⟨.memoryOutOfRange, addr⟩

/-- `MemRead(addr, 1)` (R42). -/
def State.memRead (s : State) (addr : Nat) : Except Cause Word :=
  if addr < Config.memSize then .ok (s.readWord addr) else .error (outOfRange addr)

/-- `MemWrite(addr, 1, v)` (R42); the word is already masked. -/
def State.memWrite (s : State) (addr : Nat) (v : Word) : Except Cause State :=
  if addr < Config.memSize then .ok (s.writeWord addr v) else .error (outOfRange addr)

/-! ## The stack (R52): it grows upward, SP wraps, nothing is checked. -/

/-- `x[7] <- wm(x[7] + 1)`. -/
def State.incSp (s : State) : State := s.writeReg RegIdx.sp (wm ((s.sp.toNat : Int) + 1))

/-- `x[7] <- wm(x[7] - 1)`. -/
def State.decSp (s : State) : State := s.writeReg RegIdx.sp (wm ((s.sp.toNat : Int) - 1))

/-! ## The end of a run-cycle (spec/40_sequencer.md R85, R91) -/

/-- The advance of R91: past the opcode and its operand words, if still RUNNING and the handler does not set the pc. -/
def State.advance (s : State) (op : Word) : State :=
  if s.runState = .running ∧ Opcode.setsPointer op = false then s.setPc (s.pc + 1 + Opcode.args op) else s

/-- The run-cycle completes: the advance, and the next state. -/
def complete (op : Word) (s : State) : Host.Outcome State Fault Refusal := .next (s.advance op)

end Machine

end Sys2Proof
end

