-- ==== Sys2Proof/Machine/Operands.lean ====
section
/-! DEFINITION. The operand forms: one register, two registers, a register and an immediate (spec/30_encoding.md R60, R64, R65),
with the check of spec/40_sequencer.md R89. -/

namespace Sys2Proof

namespace Machine

/-- The register an operand word names; a word of 8 or more is never masked (spec/10_state.md R25, spec/60_exceptions.md R185). -/
def regOperand (w : Word) : Except Cause RegIdx :=
  if h : w.toNat < 8 then .ok ⟨w.toNat, h⟩ else .error ⟨.registerOutOfRange, w.toNat⟩

/-- One register operand (forms F1R and F2RI), checked before the instruction's first write (R51, R89). -/
def withReg (a : Word) (s : State) (k : RegIdx → Host.Outcome State Fault Refusal) : Host.Outcome State Fault Refusal :=
  orFault s (regOperand a) k

/-- Two register operands (form F2RR), checked in operand order (R89, R188). -/
def withRegs (a b : Word) (s : State) (k : RegIdx → RegIdx → Host.Outcome State Fault Refusal) :
    Host.Outcome State Fault Refusal :=
  withReg a s fun ra => withReg b s fun rb => k ra rb

/-- The immediate operand of LOAD_IMMEDIATE: the whole word, unsigned, never checked (R65). -/
def immediate (imm : Word) : Word := imm

end Machine

end Sys2Proof
end

