-- ==== Sys2Proof/Machine/Alu.lean ====
section
/-! DEFINITION. The ALU: its functions, the dispatcher by identifier, and the fourteen ALU instructions
(spec/44_alu.md R130 .. R146). Every word is unsigned; a result is computed on integers and reduced by `wm` (R132). -/

namespace Sys2Proof

namespace Machine

/-! ## The functions (R131) -/

namespace Alu

def add (a b : Word) : Word := wm ((a.toNat : Int) + b.toNat)
def sub (a b : Word) : Word := wm ((a.toNat : Int) - b.toNat)
def mul (a b : Word) : Word := wm ((a.toNat : Int) * b.toNat)
/-- Floor division of non-negative integers (R132). -/
def div (a b : Word) : Word := wm ((a.toNat / b.toNat : Nat) : Int)
/-- The remainder (R132). -/
def mod (a b : Word) : Word := wm ((a.toNat % b.toNat : Nat) : Int)
def inc (a : Word) : Word := wm ((a.toNat : Int) + 1)
def dec (a : Word) : Word := wm ((a.toNat : Int) - 1)
/-- `wm(0xFF - A)`, the bitwise complement (R135, conflict C4, decision D15). -/
def not (a : Word) : Word := wm (0xFF - (a.toNat : Int))
def and (a b : Word) : Word := andMask a b
def or (a b : Word) : Word := orMask a b
def xor (a b : Word) : Word := xorMask a b
/-- The amount is the whole word: 8 or more gives 0 (R145). -/
def shl (a b : Word) : Word := wm ((a.toNat <<< b.toNat : Nat) : Int)
/-- Logical: zeros enter at bit 7 (R146). -/
def shr (a b : Word) : Word := wm ((a.toNat >>> b.toNat : Nat) : Int)

/-- What the ALU returns to the sequencer (spec/00_scope.md R5): a result word, new flag bits, or that the divisor is 0. -/
inductive Result where
  | word (v : Word)
  | flags (fl : Word)
  | zeroDivisor
  deriving DecidableEq, Repr

/-- The ALU operation dispatcher (R130, R131): the function an identifier selects, on A, B and FL. No ALU opcode carries an
identifier above 0xD. -/
def dispatch (identifier a b fl : Word) : Option Result :=
  match identifier.toNat with
  | 0x0 => some (.word (add a b))
  | 0x1 => some (.word (sub a b))
  | 0x2 => some (.word (mul a b))
  | 0x3 => some (if b = 0 then .zeroDivisor else .word (div a b))
  | 0x4 => some (if b = 0 then .zeroDivisor else .word (mod a b))
  | 0x5 => some (.word (inc a))
  | 0x6 => some (.word (dec a))
  | 0x7 => some (.flags (Flags.compare a b fl))
  | 0x8 => some (.word (and a b))
  | 0x9 => some (.word (not a))
  | 0xA => some (.word (or a b))
  | 0xB => some (.word (xor a b))
  | 0xC => some (.word (shl a b))
  | 0xD => some (.word (shr a b))
  | _ => none

end Alu

/-! ## The shapes of the ALU instructions -/

/-- `x[a] <- f(x[a])`, one register operand (R130). -/
def aluUnary (op : Word) (f : Word → Word) (a : Word) (s : State) : Host.Outcome State Fault Refusal :=
  withReg a s fun ra => complete op (s.writeReg ra (f (s.readReg ra)))

/-- `x[a] <- f(x[a], x[b])`, two register operands (R130). -/
def aluBinary (op : Word) (f : Word → Word → Word) (a b : Word) (s : State) : Host.Outcome State Fault Refusal :=
  withRegs a b s fun ra rb => complete op (s.writeReg ra (f (s.readReg ra) (s.readReg rb)))

/-- The divisor test of R139 and R140: DIVISION_BY_ZERO with the divisor's register index (spec/60_exceptions.md R186). -/
def checkDivisor (s : State) (rb : RegIdx) : Except Cause Unit :=
  if s.readReg rb = 0 then .error ⟨.divisionByZero, rb.val⟩ else .ok ()

/-- As `aluBinary`, with the divisor tested before the write (R132). -/
def aluDivide (op : Word) (f : Word → Word → Word) (a b : Word) (s : State) : Host.Outcome State Fault Refusal :=
  withRegs a b s fun ra rb =>
    orFault s (checkDivisor s rb) fun _ => complete op (s.writeReg ra (f (s.readReg ra) (s.readReg rb)))

/-! ## The instructions -/

/-- INCREMENT (R133). -/
def execInc (a : Word) (s : State) : Host.Outcome State Fault Refusal := aluUnary Opcode.inc Alu.inc a s

/-- DECREMENT (R134). -/
def execDec (a : Word) (s : State) : Host.Outcome State Fault Refusal := aluUnary Opcode.dec Alu.dec a s

/-- BITWISE_NOT (R135). -/
def execNot (a : Word) (s : State) : Host.Outcome State Fault Refusal := aluUnary Opcode.not Alu.not a s

/-- ADD (R136). -/
def execAdd (a b : Word) (s : State) : Host.Outcome State Fault Refusal := aluBinary Opcode.add Alu.add a b s

/-- SUBTRACT (R137). -/
def execSub (a b : Word) (s : State) : Host.Outcome State Fault Refusal := aluBinary Opcode.sub Alu.sub a b s

/-- MULTIPLY (R138). -/
def execMul (a b : Word) (s : State) : Host.Outcome State Fault Refusal := aluBinary Opcode.mul Alu.mul a b s

/-- DIVIDE (R139). -/
def execDiv (a b : Word) (s : State) : Host.Outcome State Fault Refusal := aluDivide Opcode.div Alu.div a b s

/-- MODULO (R140). -/
def execMod (a b : Word) (s : State) : Host.Outcome State Fault Refusal := aluDivide Opcode.mod Alu.mod a b s

/-- COMPARE (R141): writes FL and no register. -/
def execCmp (a b : Word) (s : State) : Host.Outcome State Fault Refusal :=
  withRegs a b s fun ra rb => complete Opcode.cmp (s.setFl (Flags.compare (s.readReg ra) (s.readReg rb) s.fl))

/-- BITWISE_AND (R142). -/
def execAnd (a b : Word) (s : State) : Host.Outcome State Fault Refusal := aluBinary Opcode.and Alu.and a b s

/-- BITWISE_OR (R143). -/
def execOr (a b : Word) (s : State) : Host.Outcome State Fault Refusal := aluBinary Opcode.or Alu.or a b s

/-- BITWISE_XOR (R144). -/
def execXor (a b : Word) (s : State) : Host.Outcome State Fault Refusal := aluBinary Opcode.xor Alu.xor a b s

/-- SHIFT_LEFT (R145). -/
def execShl (a b : Word) (s : State) : Host.Outcome State Fault Refusal := aluBinary Opcode.shl Alu.shl a b s

/-- SHIFT_RIGHT (R146). -/
def execShr (a b : Word) (s : State) : Host.Outcome State Fault Refusal := aluBinary Opcode.shr Alu.shr a b s

end Machine

end Sys2Proof
end

