-- ==== Sys2Proof/Machine/Control.lean ====
section
/-! DEFINITION. NOP, HALT, and the four opcodes without a handler (spec/40_sequencer.md R93 .. R95). -/

namespace Sys2Proof

namespace Machine

/-- NOP (R93): no effect but the advance. -/
def execNop (s : State) : Host.Outcome State Fault Refusal := complete Opcode.nop s

/-- HALT (R94): `stop(HALT)`. The advance is skipped, because the core no longer runs: the pc keeps the HALT's address. -/
def execHlt (s : State) : Host.Outcome State Fault Refusal := complete Opcode.hlt (s.stop .halt none)

/-- Dispatch finds no handler (R88, R95, spec/60_exceptions.md R184): UNIMPLEMENTED_OPERATION with the opcode word. -/
def unimplemented (op : Word) (s : State) : Host.Outcome State Fault Refusal :=
  .next (s.raiseFault ⟨.unimplementedOperation, op.toNat⟩)

/-- IRET (R95). -/
def execIret (s : State) : Host.Outcome State Fault Refusal := unimplemented Opcode.iret s

/-- INT (R95). -/
def execInt (s : State) : Host.Outcome State Fault Refusal := unimplemented Opcode.int s

/-- LD (R95). -/
def execLd (s : State) : Host.Outcome State Fault Refusal := unimplemented Opcode.ld s

/-- ST (R95). -/
def execSt (s : State) : Host.Outcome State Fault Refusal := unimplemented Opcode.st s

end Machine

end Sys2Proof
end

