-- ==== Sys2Proof/Machine/DataStack.lean ====
section
/-! DEFINITION. LOAD_IMMEDIATE, PUSH, POP (spec/41_data_and_stack.md R100 .. R102). Statements run in the order the rule
writes them, and each read sees every earlier write of the rule (spec/00_scope.md R8, decision D16). -/

namespace Sys2Proof

namespace Machine

/-- LOAD_IMMEDIATE (R100): `x[a] <- imm`. -/
def execLdi (a imm : Word) (s : State) : Host.Outcome State Fault Refusal :=
  withReg a s fun ra => complete Opcode.ldi (s.writeReg ra (immediate imm))

/-- PUSH (R101): SP + 1, then `M[SP] <- x[a]`. With a = 7 the pushed value is the new SP. -/
def execPush (a : Word) (s : State) : Host.Outcome State Fault Refusal :=
  withReg a s fun ra =>
    let s₁ := s.incSp
    orFault s (s₁.memWrite s₁.sp.toNat (s₁.readReg ra)) fun s₂ => complete Opcode.push s₂

/-- POP (R102): `x[a] <- M[SP]`, then SP - 1. With a = 7 the decrement reads the value just popped. -/
def execPop (a : Word) (s : State) : Host.Outcome State Fault Refusal :=
  withReg a s fun ra =>
    orFault s (s.memRead s.sp.toNat) fun v => complete Opcode.pop (s.writeReg ra v).decSp

end Machine

end Sys2Proof
end

