-- ==== Sys2Proof/Machine/Jumps.lean ====
section
/-! DEFINITION. The jumps (spec/45_jumps.md R160 .. R167). -/

namespace Sys2Proof

namespace Machine

/-- A jump with a condition on FL (R160): taken, the pc becomes x[a]; not taken, it becomes pc + 2 (decision D13). Both are the
handler's own, since a jump sets the pointer. -/
def jump (op : Word) (cond : Word → Bool) (a : Word) (s : State) : Host.Outcome State Fault Refusal :=
  withReg a s fun ra =>
    complete op (if cond s.fl then s.setPc (s.readReg ra).toNat else s.setPc (s.pc + 2))

/-- JMP (R161): always taken. -/
def execJmp (a : Word) (s : State) : Host.Outcome State Fault Refusal := jump Opcode.jmp (fun _ => true) a s

/-- JEQ (R162). -/
def execJeq (a : Word) (s : State) : Host.Outcome State Fault Refusal := jump Opcode.jeq Flags.eq a s

/-- JNE (R163): NEQ, which is false when FL = 0. -/
def execJne (a : Word) (s : State) : Host.Outcome State Fault Refusal := jump Opcode.jne Flags.neq a s

/-- JGT (R164). -/
def execJgt (a : Word) (s : State) : Host.Outcome State Fault Refusal := jump Opcode.jgt Flags.gt a s

/-- JLT (R165). -/
def execJlt (a : Word) (s : State) : Host.Outcome State Fault Refusal := jump Opcode.jlt Flags.lt a s

/-- JLE (R166): NGT. -/
def execJle (a : Word) (s : State) : Host.Outcome State Fault Refusal := jump Opcode.jle Flags.ngt a s

/-- JGE (R167): NLT. -/
def execJge (a : Word) (s : State) : Host.Outcome State Fault Refusal := jump Opcode.jge Flags.nlt a s

end Machine

end Sys2Proof
end

