-- ==== Sys2Proof/Machine/Output.lean ====
section
/-! DEFINITION. PRINT_NUMBER and PRINT_ALPHA, and the text of an output event (spec/43_output.md R120 .. R122). -/

namespace Sys2Proof

namespace Machine

/-- PRINT_NUMBER (R121): `emit(NUMBER, x[a])`. -/
def execPrn (a : Word) (s : State) : Host.Outcome State Fault Refusal :=
  withReg a s fun ra => complete Opcode.prn (s.emit .number (s.readReg ra))

/-- PRINT_ALPHA (R122): `emit(ALPHA, x[a])`. -/
def execPra (a : Word) (s : State) : Host.Outcome State Fault Refusal :=
  withReg a s fun ra => complete Opcode.pra (s.emit .alpha (s.readReg ra))

/-- The decimal digits of a word, at least one (R120, R121: unsigned, 0 is "0"). -/
def decimalDigits (v : Word) : List Char :=
  let digit (n : Nat) : Char := Char.ofNat (48 + n % 10)
  if v.toNat < 10 then [digit v.toNat]
  else if v.toNat < 100 then [digit (v.toNat / 10), digit v.toNat]
  else [digit (v.toNat / 100), digit (v.toNat / 10), digit v.toNat]

/-- What the host shows for one event: decimal digits, or the character with that code point (R120 .. R122). What stands
between two events is the host's and is not modelled (decision D21, log 14). -/
def OutEvent.render (e : OutEvent) : List Char :=
  match e.kind with
  | .number => decimalDigits e.value
  | .alpha => [Char.ofNat e.value.toNat]

end Machine

end Sys2Proof
end

