-- ==== Sys2Proof/Machine/Subroutine.lean ====
section
/-! DEFINITION. CALL and RETURN_FROM_CALL (spec/42_subroutine.md R110, R111). Both set the pc themselves. -/

namespace Sys2Proof

namespace Machine

/-- CALL (R110): SP + 1, then `M[SP] <- wm(pc + 2)`, then `pc <- x[a]`. With a = 7 the target is the new SP. -/
def execCall (a : Word) (s : State) : Host.Outcome State Fault Refusal :=
  withReg a s fun ra =>
    let s₁ := s.incSp
    orFault s (s₁.memWrite s₁.sp.toNat (wm ((s₁.pc : Int) + 2))) fun s₂ =>
      complete Opcode.call (s₂.setPc (s₂.readReg ra).toNat)

/-- RETURN_FROM_CALL (R111): `pc <- M[SP]`, then SP - 1. -/
def execRet (s : State) : Host.Outcome State Fault Refusal :=
  orFault s (s.memRead s.sp.toNat) fun v => complete Opcode.ret (s.setPc v.toNat).decSp

end Machine

end Sys2Proof
end

