-- ==== Sys2Proof/Machine/RunCycle.lean ====
section
/-! DEFINITION. Fetch, decode and the run-cycle (spec/40_sequencer.md R85 .. R89). -/

namespace Sys2Proof

namespace Machine

/-- The words from an address upward, at most `n`, up to the end of the address space. -/
def State.wordsFrom (s : State) : Nat → Nat → List Word
  | 0, _ => []
  | n + 1, addr =>
    match s.memRead addr with
    | .ok w => w :: s.wordsFrom n (addr + 1)
    | .error _ => []

/-- Fetch and decode at the pc (R86, R87, R89): the decoder reads the words that exist from the pc on. A word it needs and that
does not exist is at `pc + index`: MEMORY_OUT_OF_RANGE with that address. Reading a word has no side effect (R45), so words that
the instruction does not have are read unseen (log 6). -/
def fetchInstr (s : State) : Except Cause Instr :=
  match decode (s.wordsFrom maxWords s.pc) with
  | .ok (i, _) => .ok i
  | .error (.truncated index) => .error (outOfRange (s.pc + index))
  | .error (.unknownOpcode op) => .error ⟨.unknownOpcode, op.toNat⟩

/-- One run-cycle (R85): fetch, decode, then the instruction, or the fault. -/
def runCycle (s : State) : Host.Outcome State Fault Refusal := orFault s (fetchInstr s) fun i => exec i s

/-- The state with words stored from an address on, those past the end of the address space left out. -/
def State.storeWords (s : State) (addr : Nat) (ws : List Word) : State :=
  { s with memory := s.memory.writeFrom addr ws }

end Machine

end Sys2Proof
end

