-- ==== Sys2Proof/Machine/Step.lean ====
section
/-! DEFINITION. The step: the host's STEP (spec/40_sequencer.md R83). -/

namespace Sys2Proof

namespace Machine

/-- One run-cycle while RUNNING; no effect while STOPPED (R83, R85). -/
def step (s : State) : Host.Outcome State Fault Refusal :=
  match s.runState with
  | .running => runCycle s
  | .stopped => .next s

/-- The state in which the next step runs the instruction whose bits below `nbits` are `w`: its words stored from the pc on, and
the core started (R81), since a STOPPED core runs nothing (log 3). -/
def State.withFetchWord (s : State) (nbits w : Nat) : State := (s.storeWords s.pc (tableWords nbits w)).start

end Machine

end Sys2Proof
end

