-- ==== Sys2Proof/Machine/HostCalls.lean ====
section
/-! DEFINITION. The host's transactions (spec/00_scope.md R5, spec/40_sequencer.md R81 .. R84, spec/70_reset_and_hazards.md
R200 .. R203). Each is atomic and falls between run-cycles. -/

namespace Sys2Proof

namespace Machine

/-- RESET (R200): every piece of state at its reset value. -/
def hostReset (_ : State) : State := State.reset

/-- LOAD(words) (R202): `M[k] <- wm(words[k])`, nothing else; over 256 words refused as a whole. -/
def hostLoad (words : List Int) (s : State) : Host.Outcome State Fault Refusal :=
  if words.length ≤ Config.memSize then .next (s.storeWords 0 (words.map wm)) else .refused (.imageTooLong words.length)

/-- At most `n` run-cycles, none once the core has stopped. -/
def cycles : Nat → State → Host.Outcome State Fault Refusal
  | 0, s => .next s
  | n + 1, s =>
    match step s with
    | .next s' => cycles n s'
    | .fault f => .fault f
    | .refused r => .refused r

/-- The first `n` run-cycles of RUN (R84): START, then run-cycles while RUNNING. -/
def runFor (n : Nat) (s : State) : Host.Outcome State Fault Refusal := cycles n s.start

/-- RUN returns, with this state (R84): after some number of run-cycles the core has stopped. RUN need not return. -/
def RunEnds (s t : State) : Prop := ∃ n, runFor n s = .next t ∧ t.runState = .stopped

/-- A transaction of R5. -/
inductive HostCall where
  | reset
  | load (words : List Int)
  | start
  | stop
  | step
  | run
  | inspect
  deriving DecidableEq, Repr

/-- A transaction's effect on the state. RUN is followed for at most `n` run-cycles; INSPECT changes nothing. -/
def transact (n : Nat) (c : HostCall) (s : State) : Host.Outcome State Fault Refusal :=
  match c with
  | .reset => .next (hostReset s)
  | .load words => hostLoad words s
  | .start => .next s.start
  | .stop => .next s.stopExternally
  | .step => step s
  | .run => runFor n s
  | .inspect => .next s

/-- INSPECT of a register (R5, R20). The other components but memory are read off the state itself. -/
def inspectRegister (i : Nat) (s : State) : Except Fault Word :=
  if h : i < 8 then .ok (s.readReg ⟨i, h⟩) else .error (.noSuchRegister i)

/-- INSPECT of a memory word (R5, R20). -/
def inspectWord (addr : Nat) (s : State) : Except Fault Word :=
  if addr < Config.memSize then .ok (s.readWord addr) else .error (.noSuchWord addr)

end Machine

end Sys2Proof
end

