-- ==== Sys2Proof/WellFormed.lean ====
section
/-! DEFINITION. Which instructions name only registers that exist (spec/10_state.md R25, spec/30_encoding.md R64,
spec/40_sequencer.md R96). -/

namespace Sys2Proof

/-- An operand word that names a register: 0 .. 7 (R25, R64). -/
def namesReg (w : Word) : Bool := decide (w.toNat < Config.nreg)

/-- The operand words an instruction's handler uses as register indices, in operand order (R96). The immediate of
LOAD_IMMEDIATE is not one of them (R65), and an instruction without a handler has none (R95). -/
def Instr.regOperands : Instr → List Word
  | .nop | .hlt | .ret | .iret | .int | .ld | .st => []
  | .push a | .pop a | .prn a | .pra a | .call a => [a]
  | .jmp a | .jeq a | .jne a | .jgt a | .jlt a | .jle a | .jge a => [a]
  | .inc a | .dec a | .not a => [a]
  | .ldi a _ => [a]
  | .add a b | .sub a b | .mul a b | .div a b | .mod a b | .cmp a b => [a, b]
  | .and a b | .or a b | .xor a b | .shl a b | .shr a b => [a, b]

/-- Well-formed: every register operand names a register. -/
def Instr.wf (i : Instr) : Bool := i.regOperands.all namesReg

end Sys2Proof
end

