-- ==== Sys2Proof/Safety.lean ====
section
/-! DEFINITION. What a legal state is, what an instruction may change, and the other terms in which claims are stated. -/

namespace Sys2Proof

namespace Machine

/-! ## The invariant -/

/-- FL is 0 until the first COMPARE and then has exactly one of its three flags (spec/10_state.md R27, spec/44_alu.md R141). -/
def flagsLegal (fl : Word) : Bool := fl == 0b000 || fl == 0b001 || fl == 0b010 || fl == 0b100

/-- The halt record agrees with the run state, and `halt_info` holds what spec/60_exceptions.md R181 names for the reason. -/
def haltRecordLegal (s : State) : Bool :=
  match s.runState, s.haltReason, s.haltInfo with
  | .running, .none, none => true
  | .stopped, .none, none => true
  | .stopped, .halt, none => true
  | .stopped, .externalStop, none => true
  | .stopped, .unknownOpcode, some n => decide (n < 256) && !contains (BitVec.ofNat 8 n)
  | .stopped, .unimplementedOperation, some n => n == 0x13 || n == 0x52 || n == 0x83 || n == 0x84
  | .stopped, .memoryOutOfRange, some n => decide (256 ≤ n)
  | .stopped, .registerOutOfRange, some n => decide (8 ≤ n) && decide (n < 256)
  | .stopped, .divisionByZero, some n => decide (n < 8)
  | _, _, _ => false

/-- A legal state, the invariant: canonical memory inside the address space (R31), a legal FL (R27), a pc in the range R26 gives, a halt record
that agrees with the run state (R32, R181). -/
structure Legal (s : State) : Prop where
  memory : s.memory.wf = true
  flags : flagsLegal s.fl = true
  pointer : s.pc ≤ 258
  halt : haltRecordLegal s = true

/-! ## What a step leaves alone -/

/-- Every register outside a list keeps its value. -/
def SameRegsBut (written : List RegIdx) (s t : State) : Prop := ∀ j, j ∉ written → t.readReg j = s.readReg j

/-- Every word of memory keeps its value. -/
def SameMemory (s t : State) : Prop := ∀ addr, t.readWord addr = s.readWord addr

/-- Every word of memory but one keeps its value. -/
def SameMemoryBut (stored : Nat) (s t : State) : Prop := ∀ addr, addr ≠ stored → t.readWord addr = s.readWord addr

/-- The run state and the halt record keep their values. -/
def SameRun (s t : State) : Prop :=
  t.runState = s.runState ∧ t.haltReason = s.haltReason ∧ t.haltInfo = s.haltInfo

/-! ## Instructions in memory -/

/-- The words of an instruction stand in memory from the pc on. -/
def Placed (i : Instr) (s : State) : Prop :=
  ∀ (k : Nat) (h : k < (encode i).length), s.pc + k < 256 ∧ s.readWord (s.pc + k) = (encode i)[k]

/-- A listed opcode whose instruction has a handler (spec/30_encoding.md R68). -/
def hasHandler (i : Instr) : Bool :=
  match i with
  | .iret | .int | .ld | .st => false
  | .nop | .hlt | .ret | .push _ | .pop _ | .prn _ | .pra _ | .call _ | .jmp _ | .jeq _ | .jne _ | .jgt _ | .jlt _ | .jle _
  | .jge _ | .inc _ | .dec _ | .not _ | .ldi _ _ | .add _ _ | .sub _ _ | .mul _ _ | .div _ _ | .mod _ _ | .cmp _ _ | .and _ _
  | .or _ _ | .xor _ _ | .shl _ _ | .shr _ _ => true

/-- The conditional jumps, the only instructions that read FL to decide (spec/10_state.md R28). -/
def isConditionalJump (i : Instr) : Bool :=
  match i with
  | .jeq _ | .jne _ | .jgt _ | .jlt _ | .jle _ | .jge _ => true
  | .nop | .hlt | .ret | .iret | .int | .ld | .st | .push _ | .pop _ | .prn _ | .pra _ | .call _ | .jmp _ | .inc _ | .dec _
  | .not _ | .ldi _ _ | .add _ _ | .sub _ _ | .mul _ _ | .div _ _ | .mod _ _ | .cmp _ _ | .and _ _ | .or _ _ | .xor _ _
  | .shl _ _ | .shr _ _ => false

/-- The operand word that names the register an instruction writes, besides SP. -/
def destOperand (i : Instr) : Option Word :=
  match i with
  | .pop a | .inc a | .dec a | .not a => some a
  | .ldi a _ | .add a _ | .sub a _ | .mul a _ | .div a _ | .mod a _ | .and a _ | .or a _ | .xor a _ | .shl a _ | .shr a _ => some a
  | .nop | .hlt | .ret | .iret | .int | .ld | .st | .push _ | .prn _ | .pra _ | .call _ | .jmp _ | .jeq _ | .jne _ | .jgt _
  | .jlt _ | .jle _ | .jge _ | .cmp _ _ => none

/-- The instructions that move SP without naming it (spec/10_state.md R22). -/
def movesSp (i : Instr) : Bool :=
  match i with
  | .push _ | .pop _ | .call _ | .ret => true
  | .nop | .hlt | .iret | .int | .ld | .st | .prn _ | .pra _ | .jmp _ | .jeq _ | .jne _ | .jgt _ | .jlt _ | .jle _ | .jge _
  | .inc _ | .dec _ | .not _ | .ldi _ _ | .add _ _ | .sub _ _ | .mul _ _ | .div _ _ | .mod _ _ | .cmp _ _ | .and _ _ | .or _ _
  | .xor _ _ | .shl _ _ | .shr _ _ => false

/-- The address an instruction stores to, in the state before it (spec/20_memory.md R41): SP after its increment, for PUSH and
CALL. -/
def storeAddress (i : Instr) (s : State) : Option Nat :=
  match i with
  | .push _ | .call _ => some s.incSp.sp.toNat
  | .nop | .hlt | .ret | .iret | .int | .ld | .st | .pop _ | .prn _ | .pra _ | .jmp _ | .jeq _ | .jne _ | .jgt _ | .jlt _
  | .jle _ | .jge _ | .inc _ | .dec _ | .not _ | .ldi _ _ | .add _ _ | .sub _ _ | .mul _ _ | .div _ _ | .mod _ _ | .cmp _ _
  | .and _ _ | .or _ _ | .xor _ _ | .shl _ _ | .shr _ _ => none

/-- The event an instruction sends, in the state before it (spec/43_output.md R120). -/
def sentEvent (i : Instr) (s : State) : Option OutEvent :=
  match i with
  | .prn a => if h : a.toNat < 8 then some ⟨.number, s.readReg ⟨a.toNat, h⟩⟩ else none
  | .pra a => if h : a.toNat < 8 then some ⟨.alpha, s.readReg ⟨a.toNat, h⟩⟩ else none
  | .nop | .hlt | .ret | .iret | .int | .ld | .st | .push _ | .pop _ | .call _ | .jmp _ | .jeq _ | .jne _ | .jgt _ | .jlt _
  | .jle _ | .jge _ | .inc _ | .dec _ | .not _ | .ldi _ _ | .add _ _ | .sub _ _ | .mul _ _ | .div _ _ | .mod _ _ | .cmp _ _
  | .and _ _ | .or _ _ | .xor _ _ | .shl _ _ | .shr _ _ => none

/-! ## The shapes of an instruction rule (spec/40_sequencer.md: operands, encoding, pseudocode, flags, exceptions) -/

/-- "MEMORY_OUT_OF_RANGE when pc+1 (or pc+2) >= 256": the opcode stands at the pc and its last operand word, `n` words on, does
not exist. The first missing word is at 256. -/
def OperandReadFaults (op : Word) (n : Nat) : Prop :=
  ∀ s : State, s.runState = .running → s.pc < 256 → s.readWord s.pc = op → 256 ≤ s.pc + n →
    step s = .next (s.raiseFault ⟨.memoryOutOfRange, 256⟩)

/-- "REGISTER_OUT_OF_RANGE when a >= 8", for one register operand. -/
def RegisterFaults (mk : Word → Instr) : Prop :=
  ∀ (a : Word) (s : State), 8 ≤ a.toNat → exec (mk a) s = .next (s.raiseFault ⟨.registerOutOfRange, a.toNat⟩)

/-- "REGISTER_OUT_OF_RANGE when a >= 8, then when b >= 8", for two register operands. -/
def RegistersFault (mk : Word → Word → Instr) : Prop :=
  ∀ (a b : Word) (s : State),
    (8 ≤ a.toNat → exec (mk a b) s = .next (s.raiseFault ⟨.registerOutOfRange, a.toNat⟩)) ∧
    (a.toNat < 8 → 8 ≤ b.toNat → exec (mk a b) s = .next (s.raiseFault ⟨.registerOutOfRange, b.toNat⟩))

/-- Everything an instruction that writes at most the registers of a list leaves alone, the pc excepted. -/
structure Frame (written : List RegIdx) (s t : State) : Prop where
  regs : SameRegsBut written s t
  flags : t.fl = s.fl
  memory : SameMemory s t
  out : t.out = s.out
  run : SameRun s t

/-- The rule of a one-operand ALU instruction: its encoding, its result (on the unsigned value of x[a]), its advance, its frame, its
faults. -/
def UnaryAluRule (mk : Word → Instr) (op : Word) (f : Nat → Nat) : Prop :=
  (∀ a, encode (mk a) = [op, a]) ∧
  (∀ (a : Word) (ra : RegIdx) (s : State), a.toNat = ra.val → s.runState = .running →
    ∃ t, exec (mk a) s = .next t ∧ (t.readReg ra).toNat = f (s.readReg ra).toNat ∧ t.pc = s.pc + 2 ∧ Frame [ra] s t) ∧
  RegisterFaults mk ∧ OperandReadFaults op 1

/-- The rule of a two-operand ALU instruction. `runs` says on which values of x[b] it has a result. -/
def BinaryAluRule (mk : Word → Word → Instr) (op : Word) (runs : Nat → Prop) (f : Nat → Nat → Nat) : Prop :=
  (∀ a b, encode (mk a b) = [op, a, b]) ∧
  (∀ (a b : Word) (ra rb : RegIdx) (s : State), a.toNat = ra.val → b.toNat = rb.val → s.runState = .running →
    runs (s.readReg rb).toNat →
    ∃ t, exec (mk a b) s = .next t ∧ (t.readReg ra).toNat = f (s.readReg ra).toNat (s.readReg rb).toNat ∧ t.pc = s.pc + 3 ∧
      Frame [ra] s t) ∧
  RegistersFault mk ∧ OperandReadFaults op 2

/-- "DIVISION_BY_ZERO when x[b] = 0", after the register checks, with the divisor's register index. -/
def DivisorFaults (mk : Word → Word → Instr) : Prop :=
  ∀ (a b : Word) (rb : RegIdx) (s : State), a.toNat < 8 → b.toNat = rb.val → s.readReg rb = 0 →
    exec (mk a b) s = .next (s.raiseFault ⟨.divisionByZero, rb.val⟩)

/-- The rule of a jump (spec/45_jumps.md R160): its encoding, where it goes, its frame, its faults. -/
def JumpRule (mk : Word → Instr) (op : Word) (taken : Word → Prop) : Prop :=
  (∀ a, encode (mk a) = [op, a]) ∧
  (∀ (a : Word) (ra : RegIdx) (s : State), a.toNat = ra.val → s.runState = .running →
    ∃ t, exec (mk a) s = .next t ∧ (taken s.fl → t.pc = (s.readReg ra).toNat) ∧ (¬ taken s.fl → t.pc = s.pc + 2) ∧
      Frame [] s t) ∧
  RegisterFaults mk ∧ OperandReadFaults op 1

end Machine

end Sys2Proof
end

