-- ==== Sys2Proof/Certificates/Slice0/Obligations.lean ====
section
/-! DEFINITION. The statements for the provers, from the numbered rules of spec/. -/

open Sys2Proof Sys2Proof.Machine

/-! ## Words and encodings -/

/-- R9: the word mask is the remainder modulo 256, idempotent, and below 2^8. -/
def Obligations.WordMaskIsRemainder : Prop :=
  ∀ v : Int, ((wm v).toNat : Int) = v % 256 ∧ wm ((wm v).toNat : Int) = wm v ∧ (wm v).toNat < 2 ^ 8

/-- R10, on every integer: `block` and `unblock` as arithmetic; and, or, xor, `is_masked_by` and `toggle_masked` bit by bit, where bit k
of v is `(v >> k) mod 2`; the mask of a call that gives none. The spec marks the formulas of `block`, `unblock` and the three masks as
derived. On words each gives the word of the integer result (log 11: that form, and the bits of a negative integer, are the model's). -/
def Obligations.BitfieldPrimitives : Prop :=
  (∀ width shift : Nat, Bits.block width shift = (2 ^ width - 1) * 2 ^ shift) ∧
  (∀ (width shift : Nat) (v : Int), Bits.unblock width shift v = v / 2 ^ shift % 2 ^ width) ∧
  (∀ (v : Int) (k : Nat), Bits.bit v k = true ↔ v / 2 ^ k % 2 = 1) ∧
  (∀ (v m : Int) (k : Nat),
    Bits.bit (Bits.andMask v m) k = (Bits.bit v k && Bits.bit m k) ∧
    Bits.bit (Bits.orMask v m) k = (Bits.bit v k || Bits.bit m k) ∧
    Bits.bit (Bits.xorMask v m) k = (Bits.bit v k ^^ Bits.bit m k) ∧
    Bits.bit (Bits.toggleMasked true v m) k = (Bits.bit v k || Bits.bit m k) ∧
    Bits.bit (Bits.toggleMasked false v m) k = (Bits.bit v k && !Bits.bit m k && decide (k < 8))) ∧
  (∀ v m : Int, Bits.isMaskedBy v m = true ↔ ∀ k, Bits.bit m k = true → Bits.bit v k = true) ∧
  (∀ v : Int, Bits.andMask v = Bits.andMask v 0xFF ∧ Bits.orMask v = Bits.orMask v 0xFF ∧ Bits.xorMask v = Bits.xorMask v 0xFF ∧
    Bits.isMaskedBy v = Bits.isMaskedBy v 0xFF ∧ ∀ on, Bits.toggleMasked on v = Bits.toggleMasked on v 0xFF) ∧
  (∀ (v m : Word) (on : Bool), andMask v m = v &&& m ∧ orMask v m = v ||| m ∧ xorMask v m = v ^^^ m ∧
    (isMaskedBy v m = true ↔ v &&& m = m) ∧ toggleMasked on v m = if on then v ||| m else v &&& ~~~m)

/-- R66: a word or two of each family decodes to the instruction it stands for, and words after it are left over. The values
marked LS-8 in R66 are the spec's general knowledge (log 7). That ST is its opcode word alone, so that the words after it are left over, is
the model's deduction (log 9). -/
def Obligations.DecodeSampleWords : Prop :=
  decode [0x00, 0xAA] = .ok (.nop, [0xAA]) ∧
  decode [0x01] = .ok (.hlt, []) ∧
  decode [0x11, 0x01] = .ok (.ret, [0x01]) ∧
  decode [0x84, 0x02, 0x03] = .ok (.st, [0x02, 0x03]) ∧
  decode [0x45, 0x03] = .ok (.push 3, []) ∧
  decode [0x47, 0x00] = .ok (.prn 0, []) ∧
  decode [0x50, 0x06] = .ok (.call 6, []) ∧
  decode [0x5A, 0x02] = .ok (.jge 2, []) ∧
  decode [0x69, 0x05] = .ok (.not 5, []) ∧
  decode [0x82, 0x00, 0x08, 0x47] = .ok (.ldi 0 8, [0x47]) ∧
  decode [0xA7, 0x01, 0x02] = .ok (.cmp 1 2, []) ∧
  decode [0xAD, 0x04, 0x09] = .ok (.shr 4 9, []) ∧
  decode [0xA0, 0x01] = .error (.truncated 2) ∧
  decode [0xC0, 0x00] = .error (.unknownOpcode 0xC0)

/-- Decode and encode agree, in both directions, for every instruction with every operand word, those that name no register too: words
decode to an instruction with some words left over exactly when they are that instruction's words followed by those (R60, R64 .. R67; R71
for the 30 instructions with a handler). That IRET, INT, LD and ST are one word, whatever bits 7:6 of their opcodes say, is the model's
choice, deduced from R95 (log 9). -/
def Obligations.DecodeAndEncodeAgree : Prop :=
  ∀ (ws : List Word) (i : Instr) (rest : List Word), decode ws = .ok (i, rest) ↔ ws = encode i ++ rest

/-- R63: for every listed opcode the four fields, put back together, give the opcode; and they are its bits 7:6, 5, 4 and 3:0
(R62). -/
def Obligations.DescriptorReencodes : Prop :=
  ∀ r ∈ operationTable, ∃ d, getDescriptor r.opcode = some d ∧
    d.opcode = r.opcode ∧ d.name = r.name ∧ d.codeName = r.code ∧
    d.args = r.opcode.toNat / 64 ∧ d.usesAlu = r.opcode.getLsbD 5 ∧ d.setsPointer = r.opcode.getLsbD 4 ∧
    d.identifier.toNat = r.opcode.toNat % 16 ∧
    (d.args <<< 6) ||| (d.usesAlu.toNat <<< 5) ||| (d.setsPointer.toNat <<< 4) ||| d.identifier.toNat = r.opcode.toNat

/-- R183: any of the 222 unlisted words at the pc stops the core with UNKNOWN_OPCODE and the word, and nothing else changes. -/
def Obligations.UnlistedWordHalts : Prop :=
  ((List.range 256).filter (fun n => !contains (BitVec.ofNat 8 n))).length = 222 ∧
  ∀ s : State, s.runState = .running → s.pc < 256 → contains (s.readWord s.pc) = false →
    step s = .next (s.raiseFault ⟨.unknownOpcode, (s.readWord s.pc).toNat⟩)

/-! ## The sequencer -/

/-- A step of a running core whose pc stands at the words of an instruction is that instruction's meaning (R85, R86, R89, R90).
The model's `exec` holds the register check, the execute step and the advance. -/
def Obligations.StepRunsDecodedInstruction : Prop :=
  ∀ (i : Instr) (s : State), s.runState = .running → Placed i s → step s = exec i s

/-- STEP while STOPPED has no effect (R83, the spec's decision D19). -/
def Obligations.StepWhileStoppedHasNoEffect : Prop :=
  ∀ s : State, s.runState = .stopped → step s = .next s

/-- The order of the conditions of one run-cycle (R188, the spec's decision D12; the faults are the decisions D7 .. D10): each clause
says what a step does where no earlier one applies, and the last that no fault is left. -/
def Obligations.FaultPriority : Prop :=
  ∀ s : State, s.runState = .running →
    (256 ≤ s.pc → step s = .next (s.raiseFault ⟨.memoryOutOfRange, s.pc⟩)) ∧
    (s.pc < 256 → contains (s.readWord s.pc) = false →
      step s = .next (s.raiseFault ⟨.unknownOpcode, (s.readWord s.pc).toNat⟩)) ∧
    (∀ i : Instr, s.pc < 256 → s.readWord s.pc = i.opcode → hasHandler i = false →
      step s = .next (s.raiseFault ⟨.unimplementedOperation, i.opcode.toNat⟩)) ∧
    (∀ i : Instr, s.pc < 256 → s.readWord s.pc = i.opcode → hasHandler i = true → 256 < s.pc + (encode i).length →
      step s = .next (s.raiseFault ⟨.memoryOutOfRange, 256⟩)) ∧
    (∀ (i : Instr) (w : Word), Placed i s → i.regOperands.find? (fun v => !namesReg v) = some w →
      step s = .next (s.raiseFault ⟨.registerOutOfRange, w.toNat⟩)) ∧
    (∀ (i : Instr) (a b : Word) (rb : RegIdx), i = .div a b ∨ i = .mod a b → Placed i s → i.wf = true → b.toNat = rb.val →
      s.readReg rb = 0 → step s = .next (s.raiseFault ⟨.divisionByZero, rb.val⟩)) ∧
    (∀ i : Instr, Placed i s → hasHandler i = true → i.wf = true →
      (∀ (a b : Word) (rb : RegIdx), i = .div a b ∨ i = .mod a b → b.toNat = rb.val → s.readReg rb ≠ 0) →
      ∃ t, step s = .next t ∧
        (t.runState = .running ∧ t.haltReason = s.haltReason ∧ t.haltInfo = s.haltInfo ∨
          i = .hlt ∧ t.runState = .stopped ∧ t.haltReason = .halt ∧ t.haltInfo = none))

/-- After an instruction that leaves the core RUNNING, the pc is `1 + args` further on if the opcode does not set the pointer (R91); if
it does, the pc is where the handler put it: the word at SP for RET (R111), x[a] for CALL and a jump (R110, R160), or pc + 2 for a
conditional jump that is not taken, which is the spec's decision D13 (log 18). If the core has stopped, the pc keeps the opcode's
address (R94; after a fault R187, logs 1 and 20). The sum is not masked. -/
def Obligations.SequentialAdvance : Prop :=
  ∀ (i : Instr) (s t : State), s.runState = .running → exec i s = .next t →
    (t.runState = .running → Opcode.setsPointer i.opcode = false → t.pc = s.pc + 1 + Opcode.args i.opcode) ∧
    (t.runState = .running → Opcode.setsPointer i.opcode = true →
      (i = .ret ∧ t.pc = (s.readWord s.sp.toNat).toNat) ∨
      (∃ (a : Word) (ra : RegIdx), a.toNat = ra.val ∧ i.operands = [a] ∧
        (t.pc = (t.readReg ra).toNat ∨ isConditionalJump i = true ∧ t.pc = s.pc + 2))) ∧
    (t.runState = .stopped → t.pc = s.pc)

/-- Every instruction in every state, and every step, answers a next state: no data and no word ends a run outside the machine's own
STOPPED state (R180, R92). That a fault is a next state is log 1. -/
def Obligations.EveryStepAnswersNext : Prop :=
  (∀ (i : Instr) (s : State), ∃ t, exec i s = .next t) ∧ (∀ s : State, ∃ t, step s = .next t)

/-- Every stop is precise: a step that stops a running core changes the run state and the halt record and nothing else, and it stops
by HALT or by a fault; a step that does not stop it leaves the halt record alone (R80, R92, R187). That a fault leaves no partial effect
is the spec's decision D11 (log 20), and that the state after it is claimed at all is the model's choice (log 1). -/
def Obligations.StopsArePrecise : Prop :=
  ∀ s t : State, s.runState = .running → step s = .next t →
    (t.runState = .running ∧ t.haltReason = s.haltReason ∧ t.haltInfo = s.haltInfo) ∨
    t = { s with runState := .stopped, haltReason := .halt, haltInfo := none } ∨
    (∃ (reason : HaltReason) (info : Nat), reason.isFault = true ∧
      t = { s with runState := .stopped, haltReason := reason, haltInfo := some info })

/-- The invariant holds after reset. -/
def Obligations.InvariantHoldsAtReset : Prop := Legal State.reset

/-- Every step keeps the invariant: canonical memory, a legal FL (R27), the pc in R26's range, a halt record that agrees with the run
state (R32, R181). -/
def Obligations.StepKeepsInvariant : Prop :=
  ∀ s t : State, Legal s → step s = .next t → Legal t

/-- Every host transaction keeps the invariant; RUN for any number of run-cycles (R5, log 4). -/
def Obligations.HostTransactionsKeepInvariant : Prop :=
  ∀ (n : Nat) (c : HostCall) (s t : State), Legal s → transact n c s = .next t → Legal t

/-- The pc never passes 256: an operand word has to exist before the advance goes past it (R89, R91). R26 gives 0 .. 258 as the
reachable values, a range that contains this one (log 10: the sharper bound is the model's deduction). -/
def Obligations.PointerNeverPasses256 : Prop :=
  ∀ s t : State, s.pc ≤ 256 → step s = .next t → t.pc ≤ 256

/-- R28: no instruction but COMPARE writes FL, whatever it ends in, and no fault does; COMPARE sets or clears each flag by its boolean and no other
bit; and FL is read by the conditional jumps alone: any other instruction does the same whatever FL holds, up to FL itself. -/
def Obligations.FlagsWrittenByCompareReadByJumps : Prop :=
  (∀ (i : Instr) (s t : State), exec i s = .next t → (∀ a b, i ≠ .cmp a b) → t.fl = s.fl) ∧
  (∀ (a b : Word) (ra rb : RegIdx) (s t : State), a.toNat = ra.val → b.toNat = rb.val → exec (.cmp a b) s = .next t →
    (t.fl.getLsbD 0 = true ↔ (s.readReg ra).toNat = (s.readReg rb).toNat) ∧
    (t.fl.getLsbD 1 = true ↔ (s.readReg rb).toNat < (s.readReg ra).toNat) ∧
    (t.fl.getLsbD 2 = true ↔ (s.readReg ra).toNat < (s.readReg rb).toNat) ∧
    (∀ k, 3 ≤ k → t.fl.getLsbD k = s.fl.getLsbD k)) ∧
  (∀ (i : Instr) (s t : State) (fl : Word), isConditionalJump i = false → exec i s = .next t →
    ∃ u, exec i (s.setFl fl) = .next u ∧ u.setFl 0 = t.setFl 0) ∧
  (∀ (s : State) (c : Cause), (s.raiseFault c).fl = s.fl)

/-- A register changes only if the instruction names it as its destination, or it is SP and the instruction is PUSH, POP, CALL or
RET. So no instruction writes IS or IM without naming it (R22, R23, R101, R102, R110, R111). -/
def Obligations.RegistersChangeOnlyWhereNamed : Prop :=
  ∀ (i : Instr) (s t : State) (j : RegIdx), exec i s = .next t → t.readReg j ≠ s.readReg j →
    (∃ a, destOperand i = some a ∧ a.toNat = j.val) ∨ (movesSp i = true ∧ j = RegIdx.sp)

/-- IS and IM carry no function: an instruction that does not name one of them does the same whatever it holds, and keeps it (R23,
R189). -/
def Obligations.InterruptRegistersCarryNoFunction : Prop :=
  ∀ (i : Instr) (s t : State) (j : RegIdx) (v : Word), j = RegIdx.is ∨ j = RegIdx.im →
    (∀ w ∈ i.regOperands, w.toNat ≠ j.val) → exec i s = .next t →
    exec i (s.writeReg j v) = .next (t.writeReg j v)

/-- Memory changes only in the word PUSH or CALL stores to, at SP after its increment (R41, R101, R110). -/
def Obligations.MemoryChangesOnlyAtTheStack : Prop :=
  ∀ (i : Instr) (s t : State), exec i s = .next t →
    (storeAddress i s = none → SameMemory s t) ∧
    (∀ addr, storeAddress i s = some addr → SameMemoryBut addr s t)

/-- The output history only grows, by the one event PRN or PRA sends, and only when the instruction completes (R33, R120, R187). -/
def Obligations.OutputGrowsByOneEvent : Prop :=
  ∀ (i : Instr) (s t : State), exec i s = .next t →
    t.out = s.out ++ (sentEvent i s).toList

/-! ## Faults and halts -/

/-- R180: `raise Fault(reason, info)` stops the core, records the reason and the info, and keeps every register, FL, pc, memory word and
the output. The model takes that state as a next state (log 1). -/
def Obligations.FaultStopsAndKeepsState : Prop :=
  ∀ (s : State) (reason : HaltReason) (info : Nat),
    (s.raiseFault ⟨reason, info⟩).runState = .stopped ∧ (s.raiseFault ⟨reason, info⟩).haltReason = reason ∧
    (s.raiseFault ⟨reason, info⟩).haltInfo = some info ∧
    (∀ j, (s.raiseFault ⟨reason, info⟩).readReg j = s.readReg j) ∧ (s.raiseFault ⟨reason, info⟩).fl = s.fl ∧
    (s.raiseFault ⟨reason, info⟩).pc = s.pc ∧ SameMemory s (s.raiseFault ⟨reason, info⟩) ∧
    (s.raiseFault ⟨reason, info⟩).out = s.out

/-- R184: IRET, INT, LD and ST stop with UNIMPLEMENTED_OPERATION and the opcode word, and a step does so wherever the opcode stands, the
last word of memory included, because no operand is read. -/
def Obligations.UnimplementedOperationsHalt : Prop :=
  (∀ s : State,
    exec .iret s = .next (s.raiseFault ⟨.unimplementedOperation, 0x13⟩) ∧
    exec .int s = .next (s.raiseFault ⟨.unimplementedOperation, 0x52⟩) ∧
    exec .ld s = .next (s.raiseFault ⟨.unimplementedOperation, 0x83⟩) ∧
    exec .st s = .next (s.raiseFault ⟨.unimplementedOperation, 0x84⟩)) ∧
  (∀ (s : State) (n : Nat), n ∈ [0x13, 0x52, 0x83, 0x84] → s.runState = .running → s.pc < 256 →
    s.readWord s.pc = BitVec.ofNat 8 n → step s = .next (s.raiseFault ⟨.unimplementedOperation, n⟩))

/-! ## Control -/

/-- NOP has no effect but the advance (R93). That every word of memory is a NOP after reset is the spec's own inference (R93 marks it as
derived from R35 and R66); and a running core whose NOP is at 255 goes to 256 and then stops with MEMORY_OUT_OF_RANGE. -/
def Obligations.NopOnlyAdvances : Prop :=
  encode .nop = [0x00] ∧
  (∀ s : State, s.runState = .running → exec .nop s = .next { s with pc := s.pc + 1 }) ∧
  (∀ addr, addr < 256 → decode [State.reset.readWord addr] = .ok (.nop, [])) ∧
  (∀ s : State, s.runState = .running → s.pc = 255 → s.readWord 255 = 0x00 →
    ∃ t, step s = .next t ∧ t.pc = 256 ∧ step t = .next (t.raiseFault ⟨.memoryOutOfRange, 256⟩))

/-- HALT stops the core with reason HALT and keeps everything else, the pc at its own address too (R94). That a START after it runs the
same HALT again, which stops at once, is the spec's own inference (R94 marks it as derived from R81). -/
def Obligations.HaltStops : Prop :=
  encode .hlt = [0x01] ∧
  (∀ s : State, exec .hlt s = .next { s with runState := .stopped, haltReason := .halt, haltInfo := none }) ∧
  (∀ s : State, s.runState = .running → Placed .hlt s →
    ∃ t, step s = .next t ∧ t.runState = .stopped ∧ t.pc = s.pc ∧ step t.start = .next t)

/-! ## Immediate load and stack -/

/-- R100: LOAD_IMMEDIATE puts the immediate, any word, into x[a], whichever register it is. -/
def Obligations.LoadImmediate : Prop :=
  (∀ a imm, encode (.ldi a imm) = [0x82, a, imm]) ∧
  (∀ (a imm : Word) (ra : RegIdx) (s : State), a.toNat = ra.val → s.runState = .running →
    ∃ t, exec (.ldi a imm) s = .next t ∧ t.readReg ra = imm ∧ t.pc = s.pc + 3 ∧ Frame [ra] s t) ∧
  (∀ (a imm : Word) (s : State), 8 ≤ a.toNat →
    exec (.ldi a imm) s = .next (s.raiseFault ⟨.registerOutOfRange, a.toNat⟩)) ∧
  OperandReadFaults 0x82 2

/-- PUSH (R101): SP + 1 modulo 256, then the word at the new SP becomes x[a], read after the increment: with a = 7 the new SP (the spec's
decision D16). -/
def Obligations.PushStoresAboveStackPointer : Prop :=
  (∀ a, encode (.push a) = [0x45, a]) ∧
  (∀ (a : Word) (ra : RegIdx) (s : State), a.toNat = ra.val → s.runState = .running →
    ∃ t, exec (.push a) s = .next t ∧ t.sp.toNat = (s.sp.toNat + 1) % 256 ∧
      t.readWord t.sp.toNat = (if ra = RegIdx.sp then t.sp else s.readReg ra) ∧
      SameMemoryBut t.sp.toNat s t ∧ SameRegsBut [RegIdx.sp] s t ∧
      t.pc = s.pc + 2 ∧ t.fl = s.fl ∧ t.out = s.out ∧ SameRun s t) ∧
  RegisterFaults .push ∧ OperandReadFaults 0x45 1

/-- POP (R102): x[a] becomes the word at SP, then SP - 1 modulo 256; with a = 7 the decrement reads the word just popped (the spec's
decision D16). The popped word stays in memory. -/
def Obligations.PopReadsAtStackPointer : Prop :=
  (∀ a, encode (.pop a) = [0x46, a]) ∧
  (∀ (a : Word) (ra : RegIdx) (s : State), a.toNat = ra.val → s.runState = .running →
    ∃ t, exec (.pop a) s = .next t ∧
      (ra ≠ RegIdx.sp → t.readReg ra = s.readWord s.sp.toNat ∧ t.sp.toNat = (s.sp.toNat + 255) % 256) ∧
      (ra = RegIdx.sp → t.sp.toNat = ((s.readWord s.sp.toNat).toNat + 255) % 256) ∧
      t.pc = s.pc + 2 ∧ Frame [ra, RegIdx.sp] s t) ∧
  RegisterFaults .pop ∧ OperandReadFaults 0x46 1

/-- The law of R102: PUSH(Ra) then POP(Rb) puts x[a] into x[b] and SP back, for a and b in 0 .. 6 (conflict C10: not for 7). -/
def Obligations.PushThenPopRestores : Prop :=
  ∀ (a b : Word) (ra rb : RegIdx) (s : State), a.toNat = ra.val → b.toNat = rb.val → ra ≠ RegIdx.sp → rb ≠ RegIdx.sp →
    s.runState = .running →
    ∃ t u, exec (.push a) s = .next t ∧ exec (.pop b) t = .next u ∧
      u.readReg rb = s.readReg ra ∧ u.sp = s.sp ∧ SameRegsBut [rb] s u ∧ u.pc = s.pc + 4

/-! ## Subroutines -/

/-- CALL (R110): SP + 1 modulo 256, the return address pc + 2 modulo 256 at the new SP, and the pc at x[a], read after the
increment (the spec's decision D16). -/
def Obligations.CallStoresReturnAddress : Prop :=
  (∀ a, encode (.call a) = [0x50, a]) ∧
  (∀ (a : Word) (ra : RegIdx) (s : State), a.toNat = ra.val → s.runState = .running →
    ∃ t, exec (.call a) s = .next t ∧ t.sp.toNat = (s.sp.toNat + 1) % 256 ∧
      (t.readWord t.sp.toNat).toNat = (s.pc + 2) % 256 ∧
      t.pc = (if ra = RegIdx.sp then t.sp.toNat else (s.readReg ra).toNat) ∧
      SameMemoryBut t.sp.toNat s t ∧ SameRegsBut [RegIdx.sp] s t ∧ t.fl = s.fl ∧ t.out = s.out ∧ SameRun s t) ∧
  RegisterFaults .call ∧ OperandReadFaults 0x50 1

/-- RETURN_FROM_CALL (R111): the pc becomes the word at SP, then SP - 1 modulo 256; at reset that is pc 0 and SP 0xF3. -/
def Obligations.ReturnTakesPointerFromStack : Prop :=
  encode .ret = [0x11] ∧
  (∀ s : State, s.runState = .running →
    ∃ t, exec .ret s = .next t ∧ t.pc = (s.readWord s.sp.toNat).toNat ∧ t.sp.toNat = (s.sp.toNat + 255) % 256 ∧
      Frame [RegIdx.sp] s t) ∧
  (∃ t, exec .ret State.reset.start = .next t ∧ t.pc = 0 ∧ t.sp = 0xF3)

/-- The law of R111: a CALL at an address up to 253 and a RETURN_FROM_CALL in any running state with CALL's SP and CALL's stack word go
back to call_site + 2, and SP to its value before the CALL; a CALL at 254 returns to 0 (conflict C11). -/
def Obligations.CallThenReturnGoesBack : Prop :=
  ∀ (a : Word) (s t u : State), a.toNat < 8 → s.runState = .running → exec (.call a) s = .next t →
    u.runState = .running → u.sp = t.sp → u.readWord u.sp.toNat = t.readWord t.sp.toNat →
    ∃ v, exec .ret u = .next v ∧ v.sp = s.sp ∧ (s.pc ≤ 253 → v.pc = s.pc + 2) ∧ (s.pc = 254 → v.pc = 0)

/-! ## Output -/

/-- R121 and R122: PRINT_NUMBER and PRINT_ALPHA send one event, with kind NUMBER or ALPHA and the value of x[a], at the end of the
history, for every value; no register, flag or memory word changes. -/
def Obligations.PrintSendsOneEvent : Prop :=
  (∀ a, encode (.prn a) = [0x47, a]) ∧ (∀ a, encode (.pra a) = [0x48, a]) ∧
  (∀ (a : Word) (ra : RegIdx) (s : State), a.toNat = ra.val → s.runState = .running →
    ∃ t u, exec (.prn a) s = .next t ∧ exec (.pra a) s = .next u ∧
      t.out = s.out ++ [⟨.number, s.readReg ra⟩] ∧ u.out = s.out ++ [⟨.alpha, s.readReg ra⟩] ∧
      t.pc = s.pc + 2 ∧ u.pc = s.pc + 2 ∧ t.fl = s.fl ∧ u.fl = s.fl ∧ SameRegsBut [] s t ∧ SameRegsBut [] s u ∧
      SameMemory s t ∧ SameMemory s u ∧ SameRun s t ∧ SameRun s u) ∧
  RegisterFaults .prn ∧ RegisterFaults .pra ∧ OperandReadFaults 0x47 1 ∧ OperandReadFaults 0x48 1 ∧
  OutEvent.render ⟨.number, 255⟩ = ['2', '5', '5'] ∧ OutEvent.render ⟨.number, 0⟩ = ['0'] ∧
  (∀ v : Word, ∃ c : Char, OutEvent.render ⟨.alpha, v⟩ = [c] ∧ c.toNat = v.toNat)

/-! ## The ALU -/

/-- R133 and R134: INCREMENT and DECREMENT, modulo 256: 255 becomes 0 and 0 becomes 255. -/
def Obligations.IncrementAndDecrementWrap : Prop :=
  UnaryAluRule .inc 0x65 (fun a => (a + 1) % 256) ∧ UnaryAluRule .dec 0x66 (fun a => (a + 255) % 256)

/-- BITWISE_NOT (R135) with WORD read as 0xFF (the spec's decision D15, conflict C4): 255 - x[a], which is the complement of each
bit. -/
def Obligations.NotComplementsEveryBit : Prop :=
  UnaryAluRule .not 0x69 (fun a => 255 - a) ∧
  (∀ (a : Word) (ra : RegIdx) (s t : State), a.toNat = ra.val → exec (.not a) s = .next t →
    ∀ k, k < 8 → (t.readReg ra).getLsbD k = !((s.readReg ra).getLsbD k))

/-- R136: ADD modulo 256. -/
def Obligations.AddWraps : Prop := BinaryAluRule .add 0xA0 (fun _ => True) (fun a b => (a + b) % 256)

/-- R137: SUBTRACT; a negative difference wraps to 256 + difference (R132). -/
def Obligations.SubtractWraps : Prop :=
  BinaryAluRule .sub 0xA1 (fun _ => True) (fun a b => if b ≤ a then a - b else 256 + a - b)

/-- R138: MULTIPLY, the low 8 bits of the product. -/
def Obligations.MultiplyKeepsLowByte : Prop := BinaryAluRule .mul 0xA2 (fun _ => True) (fun a b => a * b % 256)

/-- R139: DIVIDE, floor division when x[b] is not 0, DIVISION_BY_ZERO when it is, after the register checks. -/
def Obligations.DivideFloorsOrFaults : Prop :=
  BinaryAluRule .div 0xA3 (fun b => b ≠ 0) (fun a b => a / b) ∧ DivisorFaults .div

/-- R140: MODULO, the remainder x[a] - x[b] * (x[a] div x[b]) when x[b] is not 0; DIVISION_BY_ZERO when it is. -/
def Obligations.ModuloRemainderOrFaults : Prop :=
  BinaryAluRule .mod 0xA4 (fun b => b ≠ 0) (fun a b => a - b * (a / b)) ∧ DivisorFaults .mod

/-- R141: COMPARE leaves exactly one flag, the one of the unsigned order of x[a] and x[b], in FL whose bits 7:3 were 0, and writes no
register. -/
def Obligations.CompareLeavesOneFlag : Prop :=
  (∀ a b, encode (.cmp a b) = [0xA7, a, b]) ∧
  (∀ (a b : Word) (ra rb : RegIdx) (s : State), a.toNat = ra.val → b.toNat = rb.val → s.runState = .running →
    s.fl.toNat < 8 →
    ∃ t, exec (.cmp a b) s = .next t ∧
      t.fl = (if (s.readReg ra).toNat < (s.readReg rb).toNat then 0b100
        else if (s.readReg ra).toNat = (s.readReg rb).toNat then 0b001 else 0b010) ∧
      t.pc = s.pc + 3 ∧ SameRegsBut [] s t ∧ SameMemory s t ∧ t.out = s.out ∧ SameRun s t) ∧
  RegistersFault .cmp ∧ OperandReadFaults 0xA7 2

/-- R142, R143 and R144: the bitwise operations, bit by bit. -/
def Obligations.BitwiseOperations : Prop :=
  BinaryAluRule .and 0xA8 (fun _ => True) (fun a b => a &&& b) ∧
  BinaryAluRule .or 0xAA (fun _ => True) (fun a b => a ||| b) ∧
  BinaryAluRule .xor 0xAB (fun _ => True) (fun a b => a ^^^ b)

/-- SHIFT_LEFT (R145): multiplication by a power of two modulo 256; an amount of 8 or more gives 0, never reduced modulo 8 (an
inference the spec marks as its own). -/
def Obligations.ShiftLeftByWholeWord : Prop :=
  BinaryAluRule .shl 0xAC (fun _ => True) (fun a b => if b < 8 then a * 2 ^ b % 256 else 0)

/-- R146: SHIFT_RIGHT, division by a power of two, zeros entering at bit 7; an amount of 8 or more gives 0. -/
def Obligations.ShiftRightByWholeWord : Prop :=
  BinaryAluRule .shr 0xAD (fun _ => True) (fun a b => if b < 8 then a / 2 ^ b else 0)

/-- The dispatcher agrees with the static handler map (R130, R131): for an ALU opcode, the identifier alone selects what the
instruction does with A = x[a] and B, where B is x[b] for two operands and is not read for one. -/
def Obligations.AluDispatchByIdentifier : Prop :=
  (∀ (i : Instr) (a : Word) (ra : RegIdx) (s : State), Opcode.usesAlu i.opcode = true → i.operands = [a] → a.toNat = ra.val →
    ∀ b : Word, ∃ v, Alu.dispatch (Opcode.identifier i.opcode) (s.readReg ra) b s.fl = some (.word v) ∧
      exec i s = complete i.opcode (s.writeReg ra v)) ∧
  (∀ (i : Instr) (a b : Word) (ra rb : RegIdx) (s : State), Opcode.usesAlu i.opcode = true → i.operands = [a, b] →
    a.toNat = ra.val → b.toNat = rb.val →
    match Alu.dispatch (Opcode.identifier i.opcode) (s.readReg ra) (s.readReg rb) s.fl with
    | some (.word v) => exec i s = complete i.opcode (s.writeReg ra v)
    | some (.flags fl) => exec i s = complete i.opcode (s.setFl fl)
    | some .zeroDivisor => exec i s = .next (s.raiseFault ⟨.divisionByZero, rb.val⟩)
    | none => False)

/-! ## Jumps -/

/-- R161: JMP goes to x[a] whatever FL holds. -/
def Obligations.JumpAlwaysTaken : Prop := JumpRule .jmp 0x54 (fun _ => True)

/-- JEQ, JGT and JLT (R162, R164, R165) go to x[a] if their one flag is set, and otherwise to pc + 2 (the spec's decision D13). -/
def Obligations.JumpsOnOneFlag : Prop :=
  JumpRule .jeq 0x55 (fun fl => fl.getLsbD 0 = true) ∧
  JumpRule .jgt 0x57 (fun fl => fl.getLsbD 1 = true) ∧
  JumpRule .jlt 0x58 (fun fl => fl.getLsbD 2 = true)

/-- JNE, JLE and JGE (R163, R166, R167) go to x[a] if ANY of their two flags is set, so none is taken when FL = 0 (the spec's decisions
D13 and D14). -/
def Obligations.JumpsOnEitherOfTwoFlags : Prop :=
  JumpRule .jne 0x56 (fun fl => fl.getLsbD 2 = true ∨ fl.getLsbD 1 = true) ∧
  JumpRule .jle 0x59 (fun fl => fl.getLsbD 2 = true ∨ fl.getLsbD 0 = true) ∧
  JumpRule .jge 0x5A (fun fl => fl.getLsbD 0 = true ∨ fl.getLsbD 1 = true)

/-! ## Flags and memory as operations -/

/-- R30: set, clear and test of a single flag. -/
def Obligations.FlagPrimitives : Prop :=
  ∀ (fl m : Word), m = 0b001 ∨ m = 0b010 ∨ m = 0b100 →
    Flags.set fl m = fl ||| m ∧ Flags.clear fl m = fl &&& ~~~m &&& 0xFF ∧ (Flags.test fl m = true ↔ fl &&& m = m) ∧
    Flags.test (Flags.set fl m) m = true ∧ Flags.test (Flags.clear fl m) m = false

/-- The memory primitives (R42; that an address of 256 or more faults is the spec's decision D8): a write inside the address space is
read back, leaves every other word alone and keeps the canonical form; outside it, both raise MEMORY_OUT_OF_RANGE. -/
def Obligations.MemoryReadAfterWrite : Prop :=
  ∀ (s : State) (addr : Nat) (v : Word),
    (addr < 256 → ∃ t, s.memWrite addr v = .ok t ∧ t.memRead addr = .ok v ∧
      (∀ other, other ≠ addr → t.memRead other = s.memRead other) ∧
      (s.memory.wf = true → t.memory.wf = true) ∧ t = { s with memory := t.memory }) ∧
    (256 ≤ addr → s.memRead addr = .error ⟨.memoryOutOfRange, addr⟩ ∧
      s.memWrite addr v = .error ⟨.memoryOutOfRange, addr⟩)

/-! ## Reset, the host's transactions, running -/

/-- Reset (R35, R200): every piece of state. SP's 0xF4, the distinct IS and IM, the halt record and the output history are the spec's
decisions D4, D5, D18 and D21. -/
def Obligations.ResetValues : Prop :=
  ∀ s : State, ∃ t, transact 0 .reset s = .next t ∧
    (∀ j : RegIdx, t.readReg j = if j = RegIdx.sp then 0xF4 else 0) ∧ t.fl = 0 ∧ t.pc = 0 ∧ (∀ addr, t.readWord addr = 0) ∧
    t.runState = .stopped ∧ t.haltReason = .none ∧ t.haltInfo = none ∧ t.out = []

/-- START and STOP (R81, R82, the spec's decision D19): each changes the run state and the halt record alone, from the other run
state; in its own it has no effect. -/
def Obligations.StartAndStop : Prop :=
  ∀ s : State,
    (s.runState = .stopped → s.start = { s with runState := .running, haltReason := .none, haltInfo := none } ∧
      s.stopExternally = s) ∧
    (s.runState = .running → s.start = s ∧
      s.stopExternally = { s with runState := .stopped, haltReason := .externalStop, haltInfo := none })

/-- LOAD (R202, the spec's decision D20): up to 256 words, masked, at addresses 0 .. len - 1; nothing else changes; a longer list is
refused and so writes nothing. -/
def Obligations.LoadWritesFromZero : Prop :=
  ∀ (words : List Int) (s : State),
    (words.length ≤ 256 → ∃ t, hostLoad words s = .next t ∧ t = { s with memory := t.memory } ∧
      (∀ (k : Nat) (h : k < words.length), t.readWord k = wm words[k]) ∧
      (∀ addr, words.length ≤ addr → t.readWord addr = s.readWord addr)) ∧
    (256 < words.length → hostLoad words s = .refused (.imageTooLong words.length))

/-- Boot (R201, R203): after RESET, LOAD of an image that begins with an instruction, and START, the first step runs that
instruction, at address 0. -/
def Obligations.BootRunsFirstInstruction : Prop :=
  ∀ (i : Instr) (rest : List Word) (s t : State), (encode i ++ rest).length ≤ 256 →
    hostLoad ((encode i ++ rest).map (fun w => (w.toNat : Int))) (hostReset s) = .next t →
    t.start.pc = 0 ∧ step t.start = exec i t.start

/-- RUN (R84, R207): a RUN returns with at most one state, and a JMP to its own address never returns. `RunEnds` is the model's choice (log
4): no host STOP falls inside a RUN, where R207 lets one end it. -/
def Obligations.RunReturnsAtMostOnce : Prop :=
  (∀ s t u : State, RunEnds s t → RunEnds s u → t = u) ∧
  (∀ (a : Word) (ra : RegIdx) (s : State), a.toNat = ra.val → Placed (.jmp a) s → (s.readReg ra).toNat = s.pc →
    ∀ t, ¬ RunEnds s t)
end

