-- ==== Sys2Proof/Laws/Word.lean ====
section
/-! SUPPORT. The word mask as arithmetic (spec/00_scope.md R9). -/

namespace Sys2Proof

namespace Laws

theorem wm_toInt (v : Int) : ((wm v).toNat : Int) = v % 256 := by
  have h : (0 : Int) ≤ v % 256 := Int.emod_nonneg v (by decide)
  simp [wm, BitVec.toNat_ofInt, Int.toNat_of_nonneg h]

theorem wm_natCast_toNat (n : Nat) : (wm (n : Int)).toNat = n % 256 := by
  have h := wm_toInt (n : Int)
  omega

/-- Masking a word's own value gives the word. -/
@[simp] theorem wm_word (w : Word) : wm (w.toNat : Int) = w := by
  apply BitVec.eq_of_toNat_eq
  rw [wm_natCast_toNat]
  have := w.isLt
  omega

end Laws

end Sys2Proof
end

