-- ==== Sys2Proof/Laws/Bitfield.lean ====
section
/-! SUPPORT. The bit-field primitives: the integer ones bit by bit, the word ones as the operators of BitVec. -/

namespace Sys2Proof

namespace Laws

/-! ## Over integers, bit by bit -/

theorem bit_ofNat (m k : Nat) : Bits.bit (.ofNat m) k = m.testBit k := by
  have h : (Int.ofNat m >>> k : Int) = ((m >>> k : Nat) : Int) := rfl
  have h2 : (((m >>> k : Nat) : Int) % 2 = 1) ↔ (m >>> k) % 2 = 1 := by omega
  rw [Bits.bit, h, Nat.testBit_eq_decide_div_mod_eq, ← Nat.shiftRight_eq_div_pow, Bool.eq_iff_iff, beq_iff_eq, h2,
    decide_eq_true_iff]

theorem bit_negSucc (m k : Nat) : Bits.bit (.negSucc m) k = !m.testBit k := by
  have h : (Int.negSucc m >>> k : Int) = Int.negSucc (m >>> k) := rfl
  have h2 : (Int.negSucc (m >>> k) % 2 = 1) ↔ ¬ (m >>> k) % 2 = 1 := by omega
  rw [Bits.bit, h, Nat.testBit_eq_decide_div_mod_eq, ← Nat.shiftRight_eq_div_pow, Bool.eq_iff_iff, beq_iff_eq, h2,
    Bool.not_eq_true', decide_eq_false_iff_not]

theorem bit_not (a : Int) (k : Nat) : Bits.bit (~~~a) k = !Bits.bit a k := by
  cases a with
  | ofNat m => exact (bit_negSucc m k).trans (by rw [bit_ofNat])
  | negSucc m => exact (bit_ofNat m k).trans (by rw [bit_negSucc, Bool.not_not])

theorem bit_and (a b : Int) (k : Nat) : Bits.bit (Bits.and a b) k = (Bits.bit a k && Bits.bit b k) := by
  cases a <;> cases b <;>
    simp only [Bits.and, bit_ofNat, bit_negSucc, Nat.testBit_and, Nat.testBit_xor, Nat.testBit_or] <;>
    rename_i m n <;> cases m.testBit k <;> cases n.testBit k <;> rfl

theorem bit_or (a b : Int) (k : Nat) : Bits.bit (Bits.or a b) k = (Bits.bit a k || Bits.bit b k) := by
  simp [Bits.or, bit_not, bit_and]

theorem bit_xor (a b : Int) (k : Nat) : Bits.bit (Bits.xor a b) k = (Bits.bit a k ^^ Bits.bit b k) := by
  cases a <;> cases b <;>
    simp only [Bits.xor, bit_ofNat, bit_negSucc, Nat.testBit_xor] <;>
    rename_i m n <;> cases m.testBit k <;> cases n.testBit k <;> rfl

/-- On naturals `Bits.or` is `|||`. -/
theorem or_ofNat (m n : Nat) : Bits.or (.ofNat m) (.ofNat n) = .ofNat (m ||| n) := rfl

/-- A natural number and a negative integer differ in every bit far enough up. -/
theorem bit_ofNat_ne_negSucc (m n : Nat) : Bits.bit (.ofNat m) (m + n + 1) ≠ Bits.bit (.negSucc n) (m + n + 1) := by
  have h (j : Nat) (hj : j ≤ m + n) : j.testBit (m + n + 1) = false :=
    Nat.testBit_lt_two_pow (Nat.lt_of_lt_of_le Nat.lt_two_pow_self (Nat.pow_le_pow_right (by omega) (by omega)))
  rw [bit_ofNat, bit_negSucc, h m (by omega), h n (by omega)]
  decide

/-- Two integers with the same bits are equal. -/
theorem bit_ext {a b : Int} (h : ∀ k, Bits.bit a k = Bits.bit b k) : a = b := by
  cases a with
  | ofNat m => cases b with
    | ofNat n => exact congrArg _ (Nat.eq_of_testBit_eq fun k => by simpa only [bit_ofNat] using h k)
    | negSucc n => exact absurd (h _) (bit_ofNat_ne_negSucc m n)
  | negSucc m => cases b with
    | ofNat n => exact absurd (h _).symm (bit_ofNat_ne_negSucc n m)
    | negSucc n =>
      exact congrArg _ (Nat.eq_of_testBit_eq fun k => Bool.not_inj (by simpa only [bit_negSucc] using h k))

/-- A mask of the low `n` bits is the remainder modulo `2 ^ n`, of a negative integer too. -/
theorem and_low (v : Int) (n : Nat) : Bits.and v (2 ^ n - 1) = v % 2 ^ n := by
  have h1 : (1 : Nat) ≤ 2 ^ n := Nat.one_le_two_pow
  have h : ((2 : Int) ^ n - 1) = Int.ofNat (2 ^ n - 1) := by
    rw [Int.ofNat_eq_natCast, Int.natCast_sub h1]; simp
  rw [h]
  cases v with
  | ofNat m =>
    show Int.ofNat (m &&& (2 ^ n - 1)) = _
    rw [Nat.and_two_pow_sub_one_eq_mod]
    simp
  | negSucc m =>
    show Int.ofNat ((2 ^ n - 1) ^^^ ((2 ^ n - 1) &&& m)) = _
    have e : (2 ^ n - 1) ^^^ ((2 ^ n - 1) &&& m) = 2 ^ n - (m % 2 ^ n + 1) := by
      have hm : m % 2 ^ n < 2 ^ n := Nat.mod_lt _ h1
      apply Nat.eq_of_testBit_eq
      intro k
      rw [Nat.testBit_two_pow_sub_succ hm]
      simp only [Nat.testBit_xor, Nat.testBit_and, Nat.testBit_two_pow_sub_one, Nat.testBit_mod_two_pow]
      by_cases hk : k < n <;> simp [hk]
    have hm : m % 2 ^ n < 2 ^ n := Nat.mod_lt _ h1
    rw [e, Int.negSucc_emod _ (by exact_mod_cast Nat.two_pow_pos n)]
    rw [Int.ofNat_eq_natCast, Int.natCast_sub hm]
    simp
    omega

/-! ## On words -/

theorem wm_ofNat (n : Nat) : wm (.ofNat n) = BitVec.ofNat 8 n := by
  apply BitVec.eq_of_toNat_eq
  rw [BitVec.toNat_ofNat]
  exact wm_natCast_toNat n

@[simp] theorem andMask_eq (bits mask : Word) : andMask bits mask = bits &&& mask := by
  apply BitVec.eq_of_toNat_eq
  have h := Nat.and_le_left (n := bits.toNat) (m := mask.toNat)
  have := bits.isLt
  show (wm (.ofNat (bits.toNat &&& mask.toNat))).toNat = _
  rw [wm_ofNat, BitVec.toNat_ofNat, BitVec.toNat_and, Nat.mod_eq_of_lt (by omega)]

@[simp] theorem orMask_eq (bits mask : Word) : orMask bits mask = bits ||| mask := by
  apply BitVec.eq_of_toNat_eq
  show (wm (Bits.or (.ofNat bits.toNat) (.ofNat mask.toNat))).toNat = _
  rw [or_ofNat, wm_ofNat, BitVec.toNat_ofNat, BitVec.toNat_or, Nat.mod_eq_of_lt (Nat.or_lt_two_pow bits.isLt mask.isLt)]

@[simp] theorem xorMask_eq (bits mask : Word) : xorMask bits mask = bits ^^^ mask := by
  apply BitVec.eq_of_toNat_eq
  show (wm (.ofNat (bits.toNat ^^^ mask.toNat))).toNat = _
  rw [wm_ofNat, BitVec.toNat_ofNat, BitVec.toNat_xor, Nat.mod_eq_of_lt (Nat.xor_lt_two_pow bits.isLt mask.isLt)]

@[simp] theorem isMaskedBy_eq (bits mask : Word) : isMaskedBy bits mask = (bits &&& mask == mask) := by
  have h : isMaskedBy bits mask = (Int.ofNat (bits.toNat &&& mask.toNat) == Int.ofNat mask.toNat) := rfl
  rw [h, Bool.eq_iff_iff, beq_iff_eq, beq_iff_eq, Int.ofNat.injEq, ← BitVec.toNat_and, BitVec.toNat_inj]

@[simp] theorem clearMask_eq (bits mask : Word) : clearMask bits mask = bits &&& ~~~mask := by
  show wm (.ofNat ((bits.toNat ^^^ (bits.toNat &&& mask.toNat)) &&& (2 ^ 8 - 1))) = _
  rw [wm_ofNat]
  apply BitVec.eq_of_getLsbD_eq
  intro i hi
  simp only [BitVec.getLsbD_ofNat, BitVec.getLsbD_and, BitVec.getLsbD_not, Nat.testBit_and, Nat.testBit_xor,
    Nat.testBit_two_pow_sub_one, BitVec.testBit_toNat, hi, decide_true, Bool.true_and, Bool.and_true]
  cases bits.getLsbD i <;> cases mask.getLsbD i <;> rfl

@[simp] theorem toggleMasked_eq (on : Bool) (bits mask : Word) :
    toggleMasked on bits mask = if on then bits ||| mask else bits &&& ~~~mask := by
  cases on
  · exact clearMask_eq bits mask
  · exact orMask_eq bits mask

end Laws

end Sys2Proof
end

