-- ==== Sys2Proof/Laws/Alu.lean ====
section
/-! SUPPORT. What the dispatcher selects for the opcode of each ALU instruction (spec/44_alu.md R131). -/

namespace Sys2Proof

namespace Laws

open Machine

variable (a b fl : Word)

/-! ## The identifiers (R66) -/

@[simp] theorem identifier_add : Opcode.identifier Opcode.add = 0 := by decide
@[simp] theorem identifier_sub : Opcode.identifier Opcode.sub = 1 := by decide
@[simp] theorem identifier_mul : Opcode.identifier Opcode.mul = 2 := by decide
@[simp] theorem identifier_div : Opcode.identifier Opcode.div = 3 := by decide
@[simp] theorem identifier_mod : Opcode.identifier Opcode.mod = 4 := by decide
@[simp] theorem identifier_inc : Opcode.identifier Opcode.inc = 5 := by decide
@[simp] theorem identifier_dec : Opcode.identifier Opcode.dec = 6 := by decide
@[simp] theorem identifier_cmp : Opcode.identifier Opcode.cmp = 7 := by decide
@[simp] theorem identifier_and : Opcode.identifier Opcode.and = 8 := by decide
@[simp] theorem identifier_not : Opcode.identifier Opcode.not = 9 := by decide
@[simp] theorem identifier_or : Opcode.identifier Opcode.or = 10 := by decide
@[simp] theorem identifier_xor : Opcode.identifier Opcode.xor = 11 := by decide
@[simp] theorem identifier_shl : Opcode.identifier Opcode.shl = 12 := by decide
@[simp] theorem identifier_shr : Opcode.identifier Opcode.shr = 13 := by decide

/-! ## The selected functions -/

@[simp] theorem dispatch_add : Alu.dispatch 0 a b fl = some (.word (Alu.add a b)) := rfl
@[simp] theorem dispatch_sub : Alu.dispatch 1 a b fl = some (.word (Alu.sub a b)) := rfl
@[simp] theorem dispatch_mul : Alu.dispatch 2 a b fl = some (.word (Alu.mul a b)) := rfl
@[simp] theorem dispatch_div : Alu.dispatch 3 a b fl = some (if b = 0 then .zeroDivisor else .word (Alu.div a b)) := rfl
@[simp] theorem dispatch_mod : Alu.dispatch 4 a b fl = some (if b = 0 then .zeroDivisor else .word (Alu.mod a b)) := rfl
@[simp] theorem dispatch_inc : Alu.dispatch 5 a b fl = some (.word (Alu.inc a)) := rfl
@[simp] theorem dispatch_dec : Alu.dispatch 6 a b fl = some (.word (Alu.dec a)) := rfl
@[simp] theorem dispatch_cmp : Alu.dispatch 7 a b fl = some (.flags (Flags.compare a b fl)) := rfl
@[simp] theorem dispatch_and : Alu.dispatch 8 a b fl = some (.word (Alu.and a b)) := rfl
@[simp] theorem dispatch_not : Alu.dispatch 9 a b fl = some (.word (Alu.not a)) := rfl
@[simp] theorem dispatch_or : Alu.dispatch 10 a b fl = some (.word (Alu.or a b)) := rfl
@[simp] theorem dispatch_xor : Alu.dispatch 11 a b fl = some (.word (Alu.xor a b)) := rfl
@[simp] theorem dispatch_shl : Alu.dispatch 12 a b fl = some (.word (Alu.shl a b)) := rfl
@[simp] theorem dispatch_shr : Alu.dispatch 13 a b fl = some (.word (Alu.shr a b)) := rfl

end Laws

end Sys2Proof
end

