-- ==== Sys2Proof/Laws/Decode.lean ====
section
/-! SUPPORT. The fields of each opcode, as spec/opcode_table.json gives them, and the decoder by format. -/

namespace Sys2Proof

namespace Laws

/-! ## ARGS, the ALU marker and SETS_POINTER of each opcode (R66) -/

@[simp] theorem nop_fields : Opcode.args Opcode.nop = 0 ∧ Opcode.usesAlu Opcode.nop = false ∧
    Opcode.setsPointer Opcode.nop = false := by decide

@[simp] theorem hlt_fields : Opcode.args Opcode.hlt = 0 ∧ Opcode.usesAlu Opcode.hlt = false ∧
    Opcode.setsPointer Opcode.hlt = false := by decide

@[simp] theorem ret_fields : Opcode.args Opcode.ret = 0 ∧ Opcode.usesAlu Opcode.ret = false ∧
    Opcode.setsPointer Opcode.ret = true := by decide

@[simp] theorem iret_fields : Opcode.args Opcode.iret = 0 ∧ Opcode.usesAlu Opcode.iret = false ∧
    Opcode.setsPointer Opcode.iret = true := by decide

@[simp] theorem push_fields : Opcode.args Opcode.push = 1 ∧ Opcode.usesAlu Opcode.push = false ∧
    Opcode.setsPointer Opcode.push = false := by decide

@[simp] theorem pop_fields : Opcode.args Opcode.pop = 1 ∧ Opcode.usesAlu Opcode.pop = false ∧
    Opcode.setsPointer Opcode.pop = false := by decide

@[simp] theorem prn_fields : Opcode.args Opcode.prn = 1 ∧ Opcode.usesAlu Opcode.prn = false ∧
    Opcode.setsPointer Opcode.prn = false := by decide

@[simp] theorem pra_fields : Opcode.args Opcode.pra = 1 ∧ Opcode.usesAlu Opcode.pra = false ∧
    Opcode.setsPointer Opcode.pra = false := by decide

@[simp] theorem call_fields : Opcode.args Opcode.call = 1 ∧ Opcode.usesAlu Opcode.call = false ∧
    Opcode.setsPointer Opcode.call = true := by decide

@[simp] theorem int_fields : Opcode.args Opcode.int = 1 ∧ Opcode.usesAlu Opcode.int = false ∧
    Opcode.setsPointer Opcode.int = true := by decide

@[simp] theorem jmp_fields : Opcode.args Opcode.jmp = 1 ∧ Opcode.usesAlu Opcode.jmp = false ∧
    Opcode.setsPointer Opcode.jmp = true := by decide

@[simp] theorem jeq_fields : Opcode.args Opcode.jeq = 1 ∧ Opcode.usesAlu Opcode.jeq = false ∧
    Opcode.setsPointer Opcode.jeq = true := by decide

@[simp] theorem jne_fields : Opcode.args Opcode.jne = 1 ∧ Opcode.usesAlu Opcode.jne = false ∧
    Opcode.setsPointer Opcode.jne = true := by decide

@[simp] theorem jgt_fields : Opcode.args Opcode.jgt = 1 ∧ Opcode.usesAlu Opcode.jgt = false ∧
    Opcode.setsPointer Opcode.jgt = true := by decide

@[simp] theorem jlt_fields : Opcode.args Opcode.jlt = 1 ∧ Opcode.usesAlu Opcode.jlt = false ∧
    Opcode.setsPointer Opcode.jlt = true := by decide

@[simp] theorem jle_fields : Opcode.args Opcode.jle = 1 ∧ Opcode.usesAlu Opcode.jle = false ∧
    Opcode.setsPointer Opcode.jle = true := by decide

@[simp] theorem jge_fields : Opcode.args Opcode.jge = 1 ∧ Opcode.usesAlu Opcode.jge = false ∧
    Opcode.setsPointer Opcode.jge = true := by decide

@[simp] theorem inc_fields : Opcode.args Opcode.inc = 1 ∧ Opcode.usesAlu Opcode.inc = true ∧
    Opcode.setsPointer Opcode.inc = false := by decide

@[simp] theorem dec_fields : Opcode.args Opcode.dec = 1 ∧ Opcode.usesAlu Opcode.dec = true ∧
    Opcode.setsPointer Opcode.dec = false := by decide

@[simp] theorem not_fields : Opcode.args Opcode.not = 1 ∧ Opcode.usesAlu Opcode.not = true ∧
    Opcode.setsPointer Opcode.not = false := by decide

@[simp] theorem ldi_fields : Opcode.args Opcode.ldi = 2 ∧ Opcode.usesAlu Opcode.ldi = false ∧
    Opcode.setsPointer Opcode.ldi = false := by decide

@[simp] theorem ld_fields : Opcode.args Opcode.ld = 2 ∧ Opcode.usesAlu Opcode.ld = false ∧
    Opcode.setsPointer Opcode.ld = false := by decide

@[simp] theorem st_fields : Opcode.args Opcode.st = 2 ∧ Opcode.usesAlu Opcode.st = false ∧
    Opcode.setsPointer Opcode.st = false := by decide

@[simp] theorem add_fields : Opcode.args Opcode.add = 2 ∧ Opcode.usesAlu Opcode.add = true ∧
    Opcode.setsPointer Opcode.add = false := by decide

@[simp] theorem sub_fields : Opcode.args Opcode.sub = 2 ∧ Opcode.usesAlu Opcode.sub = true ∧
    Opcode.setsPointer Opcode.sub = false := by decide

@[simp] theorem mul_fields : Opcode.args Opcode.mul = 2 ∧ Opcode.usesAlu Opcode.mul = true ∧
    Opcode.setsPointer Opcode.mul = false := by decide

@[simp] theorem div_fields : Opcode.args Opcode.div = 2 ∧ Opcode.usesAlu Opcode.div = true ∧
    Opcode.setsPointer Opcode.div = false := by decide

@[simp] theorem mod_fields : Opcode.args Opcode.mod = 2 ∧ Opcode.usesAlu Opcode.mod = true ∧
    Opcode.setsPointer Opcode.mod = false := by decide

@[simp] theorem cmp_fields : Opcode.args Opcode.cmp = 2 ∧ Opcode.usesAlu Opcode.cmp = true ∧
    Opcode.setsPointer Opcode.cmp = false := by decide

@[simp] theorem and_fields : Opcode.args Opcode.and = 2 ∧ Opcode.usesAlu Opcode.and = true ∧
    Opcode.setsPointer Opcode.and = false := by decide

@[simp] theorem or_fields : Opcode.args Opcode.or = 2 ∧ Opcode.usesAlu Opcode.or = true ∧
    Opcode.setsPointer Opcode.or = false := by decide

@[simp] theorem xor_fields : Opcode.args Opcode.xor = 2 ∧ Opcode.usesAlu Opcode.xor = true ∧
    Opcode.setsPointer Opcode.xor = false := by decide

@[simp] theorem shl_fields : Opcode.args Opcode.shl = 2 ∧ Opcode.usesAlu Opcode.shl = true ∧
    Opcode.setsPointer Opcode.shl = false := by decide

@[simp] theorem shr_fields : Opcode.args Opcode.shr = 2 ∧ Opcode.usesAlu Opcode.shr = true ∧
    Opcode.setsPointer Opcode.shr = false := by decide

/-! ## Decoding -/

theorem decode_nil : decode [] = .error (.truncated 0) := rfl

theorem decode_listed {op : Word} {r : Row} (h : lookup op = some r) (ws : List Word) :
    decode (op :: ws) = r.format.assemble ws := by simp [decode, h]

theorem decode_unlisted {op : Word} (h : lookup op = none) (ws : List Word) :
    decode (op :: ws) = .error (.unknownOpcode op) := by simp [decode, h]

/-- A row that is found is a row of the table, for that very opcode (R67). -/
theorem lookup_some {op : Word} {r : Row} (h : lookup op = some r) : r ∈ operationTable ∧ r.opcode = op := by
  have h1 := List.mem_of_find?_eq_some h
  have h2 := List.find?_some h
  exact ⟨h1, by simpa using h2⟩

theorem lookup_none_iff {op : Word} : lookup op = none ↔ contains op = false := by
  simp [contains]

/-- What a row's format makes has the row's opcode. -/
theorem assemble_opcode {r : Row} (hr : r ∈ operationTable) {ws rest : List Word} {i : Instr}
    (h : r.format.assemble ws = .ok (i, rest)) : i.opcode = r.opcode := by
  simp only [operationTable, List.mem_append, List.mem_cons, List.not_mem_nil, or_false] at hr
  rcases hr with
    ((rfl | rfl | rfl | rfl | rfl | rfl | rfl | rfl | rfl | rfl | rfl | rfl) |
      (rfl | rfl | rfl | rfl | rfl | rfl | rfl | rfl | rfl | rfl | rfl)) |
    (rfl | rfl | rfl | rfl | rfl | rfl | rfl | rfl | rfl | rfl | rfl) <;>
  rcases ws with _ | ⟨a, _ | ⟨b, ws⟩⟩ <;> simp [Format.assemble] at h <;> obtain ⟨rfl, rfl⟩ := h <;> rfl

/-- A format never answers that a word is unlisted. -/
theorem assemble_not_unknown (f : Format) (ws : List Word) (op : Word) : f.assemble ws ≠ .error (.unknownOpcode op) := by
  rcases ws with _ | ⟨a, _ | ⟨b, ws⟩⟩ <;> cases f <;> simp [Format.assemble]

/-- A word that is missing is the first past the words there are. -/
theorem assemble_truncated {f : Format} {ws : List Word} {index : Nat} (h : f.assemble ws = .error (.truncated index)) :
    index = ws.length + 1 ∧ ws.length ≤ 1 := by
  rcases ws with _ | ⟨a, _ | ⟨b, ws⟩⟩ <;> cases f <;> simp [Format.assemble] at h <;> subst h <;> simp

end Laws

end Sys2Proof
end

