-- ==== Sys2Proof/Laws/Memory.lean ====
section
/-! SUPPORT. The memory list: read after write, and the canonical form is kept by every operation. -/

namespace Sys2Proof

namespace Laws

open Machine

/-! ## Read after write, in any list -/

theorem read_cons (c : Host.Cell) (m : Memory) (k : Nat) :
    Memory.read (c :: m) k = if c.1 = k then c.2 else Memory.read m k := rfl

theorem erase_cons (c : Host.Cell) (m : Memory) (addr : Nat) :
    Memory.erase (c :: m) addr = if c.1 = addr then Memory.erase m addr else c :: Memory.erase m addr := by
  by_cases hc : c.1 = addr <;> simp [Memory.erase, hc]

theorem read_erase (m : Memory) (addr k : Nat) :
    Memory.read (m.erase addr) k = if k = addr then Memory.unlisted else Memory.read m k := by
  induction m with
  | nil => simp [Memory.erase, Memory.read]
  | cons c m ih =>
    rw [erase_cons, read_cons]
    by_cases hc : c.1 = addr
    · subst hc
      by_cases hk : k = c.1
      · subst hk; simp [ih]
      · simp [ih, hk, Ne.symm hk]
    · by_cases hk : c.1 = k
      · subst hk; simp [hc, read_cons]
      · simp [hc, hk, read_cons, ih]

theorem read_insert (m : Memory) (addr k : Nat) (v : Word) (hk : ∀ c ∈ m, c.1 ≠ addr) :
    Memory.read (m.insert addr v) k = if k = addr then v else Memory.read m k := by
  induction m with
  | nil => simp [Memory.insert, Memory.read, eq_comm]
  | cons c m ih =>
    have hc : c.1 ≠ addr := hk c (by simp)
    have hm := ih (fun d hd => hk d (by simp [hd]))
    simp only [Memory.insert]
    split
    · simp [read_cons, eq_comm]
    · rw [read_cons, read_cons, hm]
      by_cases h : c.1 = k
      · subst h; simp [hc]
      · simp [h]

theorem erase_avoids (m : Memory) (addr : Nat) : ∀ c ∈ m.erase addr, c.1 ≠ addr := by
  intro c hc
  simp [Memory.erase] at hc
  exact hc.2

/-- The word at an address after a write. -/
theorem read_write (m : Memory) (addr k : Nat) (v : Word) :
    (m.write addr v).read k = if k = addr then v else m.read k := by
  simp only [Memory.write]
  split
  · next h => simp [read_erase, h]
  · rw [read_insert _ _ _ _ (erase_avoids m addr), read_erase]
    by_cases hk : k = addr <;> simp [hk]

/-! ## The canonical form -/

theorem risesFrom_mono {m : Memory} {a b : Nat} (hab : a ≤ b) (h : Memory.risesFrom b m = true) :
    Memory.risesFrom a m = true := by
  cases m with
  | nil => rfl
  | cons c m => simp only [Memory.risesFrom, Bool.and_eq_true, decide_eq_true_eq] at h ⊢; exact ⟨by omega, h.2⟩

theorem risesFrom_erase {m : Memory} {a : Nat} (addr : Nat) (h : Memory.risesFrom a m = true) :
    Memory.risesFrom a (m.erase addr) = true := by
  induction m generalizing a with
  | nil => rfl
  | cons c m ih =>
    simp only [Memory.risesFrom, Bool.and_eq_true, decide_eq_true_eq] at h
    have hm := ih h.2
    simp only [Memory.erase, List.filter_cons]
    split
    · simp only [Memory.risesFrom, Bool.and_eq_true, decide_eq_true_eq]; exact ⟨h.1, hm⟩
    · exact risesFrom_mono (by omega) hm

theorem risesFrom_insert {m : Memory} {a addr : Nat} (v : Word) (ha : a ≤ addr) (hk : ∀ c ∈ m, c.1 ≠ addr)
    (h : Memory.risesFrom a m = true) : Memory.risesFrom a (m.insert addr v) = true := by
  induction m generalizing a with
  | nil => simp [Memory.insert, Memory.risesFrom, ha]
  | cons c m ih =>
    simp only [Memory.risesFrom, Bool.and_eq_true, decide_eq_true_eq] at h
    have hc : c.1 ≠ addr := hk c (by simp)
    simp only [Memory.insert]
    split
    · simp only [Memory.risesFrom, Bool.and_eq_true, decide_eq_true_eq]
      exact ⟨ha, by omega, h.2⟩
    · simp only [Memory.risesFrom, Bool.and_eq_true, decide_eq_true_eq]
      exact ⟨h.1, ih (by omega) (fun d hd => hk d (by simp [hd])) h.2⟩

theorem mem_insert {m : Memory} {addr : Nat} {v : Word} {c : Host.Cell} (h : c ∈ m.insert addr v) :
    c = (addr, v) ∨ c ∈ m := by
  induction m with
  | nil => simpa [Memory.insert] using h
  | cons d m ih =>
    simp only [Memory.insert] at h
    split at h
    · simpa using h
    · rcases List.mem_cons.mp h with rfl | h
      · simp
      · rcases ih h with h | h <;> simp [h]

/-- A write inside the address space keeps the canonical form. -/
theorem wf_write {m : Memory} {addr : Nat} (v : Word) (ha : addr < Config.memSize) (h : m.wf = true) :
    (m.write addr v).wf = true := by
  simp only [Memory.wf, Bool.and_eq_true, List.all_eq_true, decide_eq_true_eq] at h ⊢
  have herase : ∀ c ∈ m.erase addr, c.1 < Config.memSize ∧ (c.2 != Memory.unlisted) = true := by
    intro c hc
    exact h.2 c ((List.mem_filter.mp hc).1)
  simp only [Memory.write]
  split
  · exact ⟨risesFrom_erase addr h.1, herase⟩
  · next hv =>
    refine ⟨risesFrom_insert v (by omega) (erase_avoids m addr) (risesFrom_erase addr h.1), ?_⟩
    intro c hc
    rcases mem_insert hc with rfl | hc
    · exact ⟨ha, by simpa using hv⟩
    · exact herase c hc

/-- Storing words keeps the canonical form, wherever they begin. -/
theorem wf_writeFrom (ws : List Word) {m : Memory} (addr : Nat) (h : m.wf = true) :
    (m.writeFrom addr ws).wf = true := by
  induction ws generalizing m addr with
  | nil => simpa [Memory.writeFrom] using h
  | cons w ws ih =>
    simp only [Memory.writeFrom]
    apply ih
    split
    · next ha => exact wf_write w ha h
    · exact h

/-- The word at an address after words were stored from another one on. -/
theorem read_writeFrom (ws : List Word) (m : Memory) (addr k : Nat) (hk : k < Config.memSize) :
    (m.writeFrom addr ws).read k = if addr ≤ k then (ws[k - addr]?).getD (m.read k) else m.read k := by
  induction ws generalizing m addr with
  | nil => simp [Memory.writeFrom]
  | cons w ws ih =>
    simp only [Memory.writeFrom, ih]
    by_cases h1 : addr = k
    · subst h1; simp [hk, read_write, Nat.not_succ_le_self]
    · by_cases h2 : addr + 1 ≤ k
      · have h3 : addr ≤ k := by omega
        have h4 : k - addr = (k - (addr + 1)) + 1 := by omega
        have h5 : (if addr < Config.memSize then m.write addr w else m).read k = m.read k := by
          split
          · rw [read_write, if_neg (fun e => h1 e.symm)]
          · rfl
        simp [h2, h3, h4, h5]
      · have h3 : ¬ addr ≤ k := by omega
        simp only [h2, h3, if_false]
        split
        · rw [read_write, if_neg (by omega)]
        · rfl

/-- Storing words never touches an address outside the address space. -/
theorem read_writeFrom_outside (ws : List Word) (m : Memory) (addr k : Nat) (hk : Config.memSize ≤ k) :
    (m.writeFrom addr ws).read k = m.read k := by
  induction ws generalizing m addr with
  | nil => rfl
  | cons w ws ih =>
    simp only [Memory.writeFrom, ih]
    split
    · rw [read_write, if_neg (by omega)]
    · rfl

end Laws

end Sys2Proof
end

