-- ==== Sys2Proof/Laws/State.lean ====
section
/-! SUPPORT. Every named update of the state, field by field: what it sets, and what it leaves alone. -/

namespace Sys2Proof

namespace Laws

open Machine

section Updates

variable (s : State)

@[simp] theorem writeReg_regs (i : RegIdx) (v : Word) : (s.writeReg i v).regs = s.regs.set i v := rfl
@[simp] theorem writeReg_fl (i : RegIdx) (v : Word) : (s.writeReg i v).fl = s.fl := rfl
@[simp] theorem writeReg_pc (i : RegIdx) (v : Word) : (s.writeReg i v).pc = s.pc := rfl
@[simp] theorem writeReg_memory (i : RegIdx) (v : Word) : (s.writeReg i v).memory = s.memory := rfl
@[simp] theorem writeReg_runState (i : RegIdx) (v : Word) : (s.writeReg i v).runState = s.runState := rfl
@[simp] theorem writeReg_haltReason (i : RegIdx) (v : Word) : (s.writeReg i v).haltReason = s.haltReason := rfl
@[simp] theorem writeReg_haltInfo (i : RegIdx) (v : Word) : (s.writeReg i v).haltInfo = s.haltInfo := rfl
@[simp] theorem writeReg_out (i : RegIdx) (v : Word) : (s.writeReg i v).out = s.out := rfl

@[simp] theorem setPc_regs (target : Nat) : (s.setPc target).regs = s.regs := rfl
@[simp] theorem setPc_fl (target : Nat) : (s.setPc target).fl = s.fl := rfl
@[simp] theorem setPc_pc (target : Nat) : (s.setPc target).pc = target := rfl
@[simp] theorem setPc_memory (target : Nat) : (s.setPc target).memory = s.memory := rfl
@[simp] theorem setPc_runState (target : Nat) : (s.setPc target).runState = s.runState := rfl
@[simp] theorem setPc_haltReason (target : Nat) : (s.setPc target).haltReason = s.haltReason := rfl
@[simp] theorem setPc_haltInfo (target : Nat) : (s.setPc target).haltInfo = s.haltInfo := rfl
@[simp] theorem setPc_out (target : Nat) : (s.setPc target).out = s.out := rfl

@[simp] theorem setFl_regs (v : Word) : (s.setFl v).regs = s.regs := rfl
@[simp] theorem setFl_fl (v : Word) : (s.setFl v).fl = v := rfl
@[simp] theorem setFl_pc (v : Word) : (s.setFl v).pc = s.pc := rfl
@[simp] theorem setFl_memory (v : Word) : (s.setFl v).memory = s.memory := rfl
@[simp] theorem setFl_runState (v : Word) : (s.setFl v).runState = s.runState := rfl
@[simp] theorem setFl_haltReason (v : Word) : (s.setFl v).haltReason = s.haltReason := rfl
@[simp] theorem setFl_haltInfo (v : Word) : (s.setFl v).haltInfo = s.haltInfo := rfl
@[simp] theorem setFl_out (v : Word) : (s.setFl v).out = s.out := rfl

@[simp] theorem emit_regs (kind : OutKind) (v : Word) : (s.emit kind v).regs = s.regs := rfl
@[simp] theorem emit_fl (kind : OutKind) (v : Word) : (s.emit kind v).fl = s.fl := rfl
@[simp] theorem emit_pc (kind : OutKind) (v : Word) : (s.emit kind v).pc = s.pc := rfl
@[simp] theorem emit_memory (kind : OutKind) (v : Word) : (s.emit kind v).memory = s.memory := rfl
@[simp] theorem emit_runState (kind : OutKind) (v : Word) : (s.emit kind v).runState = s.runState := rfl
@[simp] theorem emit_haltReason (kind : OutKind) (v : Word) : (s.emit kind v).haltReason = s.haltReason := rfl
@[simp] theorem emit_haltInfo (kind : OutKind) (v : Word) : (s.emit kind v).haltInfo = s.haltInfo := rfl
@[simp] theorem emit_out (kind : OutKind) (v : Word) : (s.emit kind v).out = s.out ++ [⟨kind, v⟩] := rfl

@[simp] theorem stop_regs (reason : HaltReason) (info : Option Nat) : (s.stop reason info).regs = s.regs := rfl
@[simp] theorem stop_fl (reason : HaltReason) (info : Option Nat) : (s.stop reason info).fl = s.fl := rfl
@[simp] theorem stop_pc (reason : HaltReason) (info : Option Nat) : (s.stop reason info).pc = s.pc := rfl
@[simp] theorem stop_memory (reason : HaltReason) (info : Option Nat) : (s.stop reason info).memory = s.memory := rfl
@[simp] theorem stop_runState (reason : HaltReason) (info : Option Nat) : (s.stop reason info).runState = .stopped := rfl
@[simp] theorem stop_haltReason (reason : HaltReason) (info : Option Nat) : (s.stop reason info).haltReason = reason := rfl
@[simp] theorem stop_haltInfo (reason : HaltReason) (info : Option Nat) : (s.stop reason info).haltInfo = info := rfl
@[simp] theorem stop_out (reason : HaltReason) (info : Option Nat) : (s.stop reason info).out = s.out := rfl

@[simp] theorem raiseFault_regs (c : Cause) : (s.raiseFault c).regs = s.regs := rfl
@[simp] theorem raiseFault_fl (c : Cause) : (s.raiseFault c).fl = s.fl := rfl
@[simp] theorem raiseFault_pc (c : Cause) : (s.raiseFault c).pc = s.pc := rfl
@[simp] theorem raiseFault_memory (c : Cause) : (s.raiseFault c).memory = s.memory := rfl
@[simp] theorem raiseFault_runState (c : Cause) : (s.raiseFault c).runState = .stopped := rfl
@[simp] theorem raiseFault_haltReason (c : Cause) : (s.raiseFault c).haltReason = c.reason := rfl
@[simp] theorem raiseFault_haltInfo (c : Cause) : (s.raiseFault c).haltInfo = some c.info := rfl
@[simp] theorem raiseFault_out (c : Cause) : (s.raiseFault c).out = s.out := rfl

@[simp] theorem writeWord_regs (addr : Nat) (v : Word) : (s.writeWord addr v).regs = s.regs := rfl
@[simp] theorem writeWord_fl (addr : Nat) (v : Word) : (s.writeWord addr v).fl = s.fl := rfl
@[simp] theorem writeWord_pc (addr : Nat) (v : Word) : (s.writeWord addr v).pc = s.pc := rfl
@[simp] theorem writeWord_memory (addr : Nat) (v : Word) : (s.writeWord addr v).memory = s.memory.write addr v := rfl
@[simp] theorem writeWord_runState (addr : Nat) (v : Word) : (s.writeWord addr v).runState = s.runState := rfl
@[simp] theorem writeWord_haltReason (addr : Nat) (v : Word) : (s.writeWord addr v).haltReason = s.haltReason := rfl
@[simp] theorem writeWord_haltInfo (addr : Nat) (v : Word) : (s.writeWord addr v).haltInfo = s.haltInfo := rfl
@[simp] theorem writeWord_out (addr : Nat) (v : Word) : (s.writeWord addr v).out = s.out := rfl

@[simp] theorem storeWords_regs (addr : Nat) (ws : List Word) : (s.storeWords addr ws).regs = s.regs := rfl
@[simp] theorem storeWords_fl (addr : Nat) (ws : List Word) : (s.storeWords addr ws).fl = s.fl := rfl
@[simp] theorem storeWords_pc (addr : Nat) (ws : List Word) : (s.storeWords addr ws).pc = s.pc := rfl
@[simp] theorem storeWords_memory (addr : Nat) (ws : List Word) : (s.storeWords addr ws).memory = s.memory.writeFrom addr ws := rfl
@[simp] theorem storeWords_runState (addr : Nat) (ws : List Word) : (s.storeWords addr ws).runState = s.runState := rfl
@[simp] theorem storeWords_haltReason (addr : Nat) (ws : List Word) : (s.storeWords addr ws).haltReason = s.haltReason := rfl
@[simp] theorem storeWords_haltInfo (addr : Nat) (ws : List Word) : (s.storeWords addr ws).haltInfo = s.haltInfo := rfl
@[simp] theorem storeWords_out (addr : Nat) (ws : List Word) : (s.storeWords addr ws).out = s.out := rfl

/-! Reading a register or a word depends on its own field alone. -/

@[simp] theorem writeReg_readWord (i : RegIdx) (v : Word) (k : Nat) : (s.writeReg i v).readWord k = s.readWord k := rfl
@[simp] theorem setPc_readReg (target : Nat) (j : RegIdx) : (s.setPc target).readReg j = s.readReg j := rfl
@[simp] theorem setPc_sp (target : Nat) : (s.setPc target).sp = s.sp := rfl
@[simp] theorem setPc_readWord (target : Nat) (k : Nat) : (s.setPc target).readWord k = s.readWord k := rfl
@[simp] theorem setFl_readReg (v : Word) (j : RegIdx) : (s.setFl v).readReg j = s.readReg j := rfl
@[simp] theorem setFl_sp (v : Word) : (s.setFl v).sp = s.sp := rfl
@[simp] theorem setFl_readWord (v : Word) (k : Nat) : (s.setFl v).readWord k = s.readWord k := rfl
@[simp] theorem emit_readReg (kind : OutKind) (v : Word) (j : RegIdx) : (s.emit kind v).readReg j = s.readReg j := rfl
@[simp] theorem emit_sp (kind : OutKind) (v : Word) : (s.emit kind v).sp = s.sp := rfl
@[simp] theorem emit_readWord (kind : OutKind) (v : Word) (k : Nat) : (s.emit kind v).readWord k = s.readWord k := rfl
@[simp] theorem stop_readReg (reason : HaltReason) (info : Option Nat) (j : RegIdx) : (s.stop reason info).readReg j = s.readReg j := rfl
@[simp] theorem stop_sp (reason : HaltReason) (info : Option Nat) : (s.stop reason info).sp = s.sp := rfl
@[simp] theorem stop_readWord (reason : HaltReason) (info : Option Nat) (k : Nat) : (s.stop reason info).readWord k = s.readWord k := rfl
@[simp] theorem raiseFault_readReg (c : Cause) (j : RegIdx) : (s.raiseFault c).readReg j = s.readReg j := rfl
@[simp] theorem raiseFault_sp (c : Cause) : (s.raiseFault c).sp = s.sp := rfl
@[simp] theorem raiseFault_readWord (c : Cause) (k : Nat) : (s.raiseFault c).readWord k = s.readWord k := rfl
@[simp] theorem writeWord_readReg (addr : Nat) (v : Word) (j : RegIdx) : (s.writeWord addr v).readReg j = s.readReg j := rfl
@[simp] theorem writeWord_sp (addr : Nat) (v : Word) : (s.writeWord addr v).sp = s.sp := rfl
@[simp] theorem storeWords_readReg (addr : Nat) (ws : List Word) (j : RegIdx) : (s.storeWords addr ws).readReg j = s.readReg j := rfl
@[simp] theorem storeWords_sp (addr : Nat) (ws : List Word) : (s.storeWords addr ws).sp = s.sp := rfl

/-- A register reads as what was last written to it, and a write to another leaves it alone: no register is hardwired (R21). -/
theorem readReg_writeReg (i j : RegIdx) (v : Word) :
    (s.writeReg i v).readReg j = if j = i then v else s.readReg j := by
  have h := Vector.getElem_set (xs := s.regs) (x := v) (i := i.val) (j := j.val) i.isLt j.isLt
  simp only [State.readReg, State.writeReg, Fin.getElem_fin]
  rw [h]
  by_cases hji : j = i
  · simp [hji]
  · have : ¬ i.val = j.val := fun e => hji (Fin.ext e.symm)
    simp [hji, this]

@[simp] theorem readReg_writeReg_same (i : RegIdx) (v : Word) : (s.writeReg i v).readReg i = v := by
  simp [readReg_writeReg]

theorem readReg_writeReg_ne {i j : RegIdx} (v : Word) (h : j ≠ i) : (s.writeReg i v).readReg j = s.readReg j := by
  simp [readReg_writeReg, h]

/-- Writes to two registers commute. -/
theorem writeReg_comm {i j : RegIdx} (v w : Word) (h : i ≠ j) :
    (s.writeReg i v).writeReg j w = (s.writeReg j w).writeReg i v := by
  have hne : i.val ≠ j.val := fun e => h (Fin.ext e)
  simp only [State.writeReg]
  rw [Vector.set_comm (i := i.val) (j := j.val) v w hne]

end Updates

/-! ## START and STOP -/

theorem start_of_running {s : State} (h : s.runState = .running) : s.start = s := by
  simp [State.start, h]

theorem start_of_stopped {s : State} (h : s.runState = .stopped) :
    s.start = { s with runState := .running, haltReason := .none, haltInfo := none } := by
  simp [State.start, h]

@[simp] theorem start_runState (s : State) : s.start.runState = .running := by
  cases h : s.runState <;> simp [State.start, h]

@[simp] theorem start_regs (s : State) : s.start.regs = s.regs := by
  cases h : s.runState <;> simp [State.start, h]

@[simp] theorem start_fl (s : State) : s.start.fl = s.fl := by
  cases h : s.runState <;> simp [State.start, h]

@[simp] theorem start_pc (s : State) : s.start.pc = s.pc := by
  cases h : s.runState <;> simp [State.start, h]

@[simp] theorem start_memory (s : State) : s.start.memory = s.memory := by
  cases h : s.runState <;> simp [State.start, h]

@[simp] theorem start_out (s : State) : s.start.out = s.out := by
  cases h : s.runState <;> simp [State.start, h]

@[simp] theorem start_readReg (s : State) (j : RegIdx) : s.start.readReg j = s.readReg j := by
  simp [State.readReg]

@[simp] theorem start_readWord (s : State) (k : Nat) : s.start.readWord k = s.readWord k := by
  simp [State.readWord]

end Laws

end Sys2Proof
end

