-- ==== Sys2Proof/Laws/Ops.lean ====
section
/-! SUPPORT. What each shared operation can do: faults, memory access, the stack, operands, the advance. -/

namespace Sys2Proof

namespace Laws

open Machine

/-! ## Going on or taking the fault -/

@[simp] theorem orFault_ok {α : Type} (s : State) (v : α) (k : α → Host.Outcome State Fault Refusal) :
    orFault s (.ok v) k = k v := rfl

@[simp] theorem orFault_error {α : Type} (s : State) (c : Cause) (k : α → Host.Outcome State Fault Refusal) :
    orFault s (.error c) k = .next (s.raiseFault c) := rfl

/-! ## Memory (R42) -/

theorem memRead_of_lt {s : State} {addr : Nat} (h : addr < 256) : s.memRead addr = .ok (s.readWord addr) := by
  simp [State.memRead, Config.memSize, Config.wordSize, Config.bitCount, h]

theorem memRead_of_ge {s : State} {addr : Nat} (h : 256 ≤ addr) : s.memRead addr = .error (outOfRange addr) := by
  simp [State.memRead, Config.memSize, Config.wordSize, Config.bitCount, Nat.not_lt.mpr h]

theorem memWrite_of_lt {s : State} {addr : Nat} (v : Word) (h : addr < 256) :
    s.memWrite addr v = .ok (s.writeWord addr v) := by
  simp [State.memWrite, Config.memSize, Config.wordSize, Config.bitCount, h]

theorem memWrite_of_ge {s : State} {addr : Nat} (v : Word) (h : 256 ≤ addr) :
    s.memWrite addr v = .error (outOfRange addr) := by
  simp [State.memWrite, Config.memSize, Config.wordSize, Config.bitCount, Nat.not_lt.mpr h]

/-- An SP-relative read is always in range (R47). -/
@[simp] theorem memRead_word (s : State) (w : Word) : s.memRead w.toNat = .ok (s.readWord w.toNat) :=
  memRead_of_lt w.isLt

/-- An SP-relative write is always in range (R47). -/
@[simp] theorem memWrite_word (s : State) (w v : Word) : s.memWrite w.toNat v = .ok (s.writeWord w.toNat v) :=
  memWrite_of_lt v w.isLt

theorem readWord_writeWord (s : State) (addr k : Nat) (v : Word) :
    (s.writeWord addr v).readWord k = if k = addr then v else s.readWord k := by
  simp [State.readWord, read_write]

/-! ## The stack (R52) -/

theorem incSp_sp (s : State) : s.incSp.sp.toNat = (s.sp.toNat + 1) % 256 := by
  have := wm_natCast_toNat (s.sp.toNat + 1)
  simpa [State.incSp, State.sp] using this

theorem decSp_sp (s : State) : s.decSp.sp.toNat = (s.sp.toNat + 255) % 256 := by
  have h := wm_toInt ((s.sp.toNat : Int) - 1)
  simp only [State.decSp, State.sp, readReg_writeReg_same] at h ⊢
  omega

@[simp] theorem incSp_fl (s : State) : s.incSp.fl = s.fl := rfl

@[simp] theorem incSp_pc (s : State) : s.incSp.pc = s.pc := rfl

@[simp] theorem incSp_memory (s : State) : s.incSp.memory = s.memory := rfl

@[simp] theorem incSp_runState (s : State) : s.incSp.runState = s.runState := rfl

@[simp] theorem incSp_haltReason (s : State) : s.incSp.haltReason = s.haltReason := rfl

@[simp] theorem incSp_haltInfo (s : State) : s.incSp.haltInfo = s.haltInfo := rfl

@[simp] theorem incSp_out (s : State) : s.incSp.out = s.out := rfl

@[simp] theorem incSp_readWord (s : State) (k : Nat) : s.incSp.readWord k = s.readWord k := rfl

theorem incSp_readReg (s : State) {j : RegIdx} (h : j ≠ RegIdx.sp) : s.incSp.readReg j = s.readReg j := by
  simp [State.incSp, readReg_writeReg, h]

@[simp] theorem decSp_fl (s : State) : s.decSp.fl = s.fl := rfl

@[simp] theorem decSp_pc (s : State) : s.decSp.pc = s.pc := rfl

@[simp] theorem decSp_memory (s : State) : s.decSp.memory = s.memory := rfl

@[simp] theorem decSp_runState (s : State) : s.decSp.runState = s.runState := rfl

@[simp] theorem decSp_haltReason (s : State) : s.decSp.haltReason = s.haltReason := rfl

@[simp] theorem decSp_haltInfo (s : State) : s.decSp.haltInfo = s.haltInfo := rfl

@[simp] theorem decSp_out (s : State) : s.decSp.out = s.out := rfl

@[simp] theorem decSp_readWord (s : State) (k : Nat) : s.decSp.readWord k = s.readWord k := rfl

theorem decSp_readReg (s : State) {j : RegIdx} (h : j ≠ RegIdx.sp) : s.decSp.readReg j = s.readReg j := by
  simp [State.decSp, readReg_writeReg, h]

/-! ## Operands (R25, R89) -/

@[simp] theorem namesReg_iff (w : Word) : namesReg w = true ↔ w.toNat < 8 := by
  unfold namesReg
  exact decide_eq_true_iff

/-- The register operand of a well-formed instruction that has one. -/
theorem register_of_wf {i : Instr} {a : Word} (h : i.wf = true) (hr : i.regOperands = [a]) :
    ∃ ra : RegIdx, a.toNat = ra.val := by
  simp [Instr.wf, hr] at h
  exact ⟨⟨_, h⟩, rfl⟩

/-- The register operands of a well-formed instruction that has two. -/
theorem registers_of_wf {i : Instr} {a b : Word} (h : i.wf = true) (hr : i.regOperands = [a, b]) :
    ∃ ra rb : RegIdx, a.toNat = ra.val ∧ b.toNat = rb.val := by
  simp [Instr.wf, hr] at h
  exact ⟨⟨_, h.1⟩, ⟨_, h.2⟩, rfl, rfl⟩

theorem regOperand_of_lt {w : Word} (h : w.toNat < 8) : regOperand w = .ok ⟨w.toNat, h⟩ := by
  simp [regOperand, h]

theorem regOperand_of_eq {w : Word} {r : RegIdx} (h : w.toNat = r.val) : regOperand w = .ok r := by
  have hlt : w.toNat < 8 := h ▸ r.isLt
  rw [regOperand_of_lt hlt]
  exact congrArg Except.ok (Fin.ext h)

theorem regOperand_of_ge {w : Word} (h : 8 ≤ w.toNat) : regOperand w = .error ⟨.registerOutOfRange, w.toNat⟩ := by
  simp [regOperand, Nat.not_lt.mpr h]

/-- A register operand names a register, or stops the instruction; nothing else. -/
theorem withReg_cases (a : Word) (s : State) (k : RegIdx → Host.Outcome State Fault Refusal) :
    (∃ r : RegIdx, a.toNat = r.val ∧ withReg a s k = k r) ∨
    (8 ≤ a.toNat ∧ withReg a s k = .next (s.raiseFault ⟨.registerOutOfRange, a.toNat⟩)) := by
  by_cases h : a.toNat < 8
  · exact .inl ⟨⟨a.toNat, h⟩, rfl, by simp [withReg, regOperand_of_lt h]⟩
  · exact .inr ⟨by omega, by simp [withReg, regOperand_of_ge (Nat.not_lt.mp h)]⟩

theorem withReg_of_eq {a : Word} {r : RegIdx} (h : a.toNat = r.val) (s : State)
    (k : RegIdx → Host.Outcome State Fault Refusal) : withReg a s k = k r := by
  simp [withReg, regOperand_of_eq h]

theorem withReg_of_ge {a : Word} (h : 8 ≤ a.toNat) (s : State) (k : RegIdx → Host.Outcome State Fault Refusal) :
    withReg a s k = .next (s.raiseFault ⟨.registerOutOfRange, a.toNat⟩) := by
  simp [withReg, regOperand_of_ge h]

/-- Two register operands name two registers, or the first that names none stops the instruction. -/
theorem withRegs_cases (a b : Word) (s : State) (k : RegIdx → RegIdx → Host.Outcome State Fault Refusal) :
    (∃ ra rb : RegIdx, a.toNat = ra.val ∧ b.toNat = rb.val ∧ withRegs a b s k = k ra rb) ∨
    (∃ w : Word, (w = a ∨ w = b) ∧ 8 ≤ w.toNat ∧ withRegs a b s k = .next (s.raiseFault ⟨.registerOutOfRange, w.toNat⟩)) := by
  rcases withReg_cases a s (fun ra => withReg b s fun rb => k ra rb) with ⟨ra, ha, h⟩ | ⟨ha, h⟩
  · rcases withReg_cases b s (fun rb => k ra rb) with ⟨rb, hb, h'⟩ | ⟨hb, h'⟩
    · exact .inl ⟨ra, rb, ha, hb, by simp only [withRegs]; rw [h, h']⟩
    · exact .inr ⟨b, .inr rfl, hb, by simp only [withRegs]; rw [h, h']⟩
  · exact .inr ⟨a, .inl rfl, ha, by simp only [withRegs]; rw [h]⟩

theorem withRegs_of_eq {a b : Word} {ra rb : RegIdx} (ha : a.toNat = ra.val) (hb : b.toNat = rb.val) (s : State)
    (k : RegIdx → RegIdx → Host.Outcome State Fault Refusal) : withRegs a b s k = k ra rb := by
  simp [withRegs, withReg_of_eq ha, withReg_of_eq hb]

theorem checkDivisor_zero {s : State} {r : RegIdx} (h : s.readReg r = 0) :
    checkDivisor s r = .error ⟨.divisionByZero, r.val⟩ := by simp [checkDivisor, h]

theorem checkDivisor_ne {s : State} {r : RegIdx} (h : s.readReg r ≠ 0) : checkDivisor s r = .ok () := by
  rw [checkDivisor, if_neg h]

/-! ## The advance (R91) -/

theorem advance_running {s : State} {op : Word} (h : s.runState = .running) (hp : Opcode.setsPointer op = false) :
    s.advance op = s.setPc (s.pc + 1 + Opcode.args op) := by
  simp [State.advance, h, hp]

theorem advance_setsPointer {s : State} {op : Word} (hp : Opcode.setsPointer op = true) : s.advance op = s := by
  simp [State.advance, hp]

theorem advance_stopped {s : State} {op : Word} (h : s.runState = .stopped) : s.advance op = s := by
  simp [State.advance, h]

theorem advance_pc {s : State} {op : Word} (h : s.runState = .running) (hp : Opcode.setsPointer op = false) :
    (s.advance op).pc = s.pc + 1 + Opcode.args op := by
  rw [advance_running h hp, setPc_pc]

/-- The advance moves the pc and nothing else. -/
theorem advance_eq_setPc (s : State) (op : Word) : ∃ n, s.advance op = s.setPc n := by
  unfold State.advance
  split
  · exact ⟨_, rfl⟩
  · exact ⟨s.pc, rfl⟩

@[simp] theorem advance_regs (s : State) (op : Word) : (s.advance op).regs = s.regs := by
  unfold State.advance; split <;> rfl

@[simp] theorem advance_fl (s : State) (op : Word) : (s.advance op).fl = s.fl := by
  unfold State.advance; split <;> rfl

@[simp] theorem advance_memory (s : State) (op : Word) : (s.advance op).memory = s.memory := by
  unfold State.advance; split <;> rfl

@[simp] theorem advance_runState (s : State) (op : Word) : (s.advance op).runState = s.runState := by
  unfold State.advance; split <;> rfl

@[simp] theorem advance_haltReason (s : State) (op : Word) : (s.advance op).haltReason = s.haltReason := by
  unfold State.advance; split <;> rfl

@[simp] theorem advance_haltInfo (s : State) (op : Word) : (s.advance op).haltInfo = s.haltInfo := by
  unfold State.advance; split <;> rfl

@[simp] theorem advance_out (s : State) (op : Word) : (s.advance op).out = s.out := by
  unfold State.advance; split <;> rfl

@[simp] theorem advance_readReg (s : State) (op : Word) (j : RegIdx) : (s.advance op).readReg j = s.readReg j := by
  simp [State.readReg]

@[simp] theorem advance_sp (s : State) (op : Word) : (s.advance op).sp = s.sp := by
  simp [State.sp]

@[simp] theorem advance_readWord (s : State) (op : Word) (k : Nat) : (s.advance op).readWord k = s.readWord k := by
  simp [State.readWord]

end Laws

end Sys2Proof
end

