-- ==== Sys2Proof/Laws/Exec.lean ====
section
/-! SUPPORT. What each meaning can do, said once: the next state for operands that name registers, and the two ways a shape can end.
-/

namespace Sys2Proof

namespace Laws

open Machine

/-! ## With operands that name registers -/

section Named

variable {a b : Word} {ra rb : RegIdx} (s : State)

theorem execLdi_of_eq (imm : Word) (ha : a.toNat = ra.val) :
    exec (.ldi a imm) s = .next ((s.writeReg ra imm).advance Opcode.ldi) := by
  simp [exec, execLdi, withReg_of_eq ha, complete, immediate]

theorem execPush_of_eq (ha : a.toNat = ra.val) :
    exec (.push a) s =
      .next ((s.incSp.writeWord s.incSp.sp.toNat (s.incSp.readReg ra)).advance Opcode.push) := by
  simp [exec, execPush, withReg_of_eq ha, complete]

theorem execPop_of_eq (ha : a.toNat = ra.val) :
    exec (.pop a) s = .next ((s.writeReg ra (s.readWord s.sp.toNat)).decSp.advance Opcode.pop) := by
  simp [exec, execPop, withReg_of_eq ha, complete]

/-- CALL sets the pointer, so nothing is advanced. -/
theorem execCall_of_eq (ha : a.toNat = ra.val) :
    exec (.call a) s =
      .next ((s.incSp.writeWord s.incSp.sp.toNat (wm ((s.pc : Int) + 2))).setPc (s.incSp.readReg ra).toNat) := by
  simp [exec, execCall, withReg_of_eq ha, complete, advance_setsPointer, State.incSp]

theorem execRet_eq : exec .ret s = .next (s.setPc (s.readWord s.sp.toNat).toNat).decSp := by
  simp [exec, execRet, complete, advance_setsPointer]

theorem execPrn_of_eq (ha : a.toNat = ra.val) :
    exec (.prn a) s = .next ((s.emit .number (s.readReg ra)).advance Opcode.prn) := by
  simp [exec, execPrn, withReg_of_eq ha, complete]

theorem execPra_of_eq (ha : a.toNat = ra.val) :
    exec (.pra a) s = .next ((s.emit .alpha (s.readReg ra)).advance Opcode.pra) := by
  simp [exec, execPra, withReg_of_eq ha, complete]

theorem execCmp_of_eq (ha : a.toNat = ra.val) (hb : b.toNat = rb.val) :
    exec (.cmp a b) s =
      .next ((s.setFl (Flags.compare (s.readReg ra) (s.readReg rb) s.fl)).advance Opcode.cmp) := by
  simp [exec, execCmp, withRegs_of_eq ha hb, complete]

theorem aluUnary_of_eq (op : Word) (f : Word → Word) (ha : a.toNat = ra.val) :
    aluUnary op f a s = .next ((s.writeReg ra (f (s.readReg ra))).advance op) := by
  simp [aluUnary, withReg_of_eq ha, complete]

theorem aluBinary_of_eq (op : Word) (f : Word → Word → Word) (ha : a.toNat = ra.val) (hb : b.toNat = rb.val) :
    aluBinary op f a b s = .next ((s.writeReg ra (f (s.readReg ra) (s.readReg rb))).advance op) := by
  simp [aluBinary, withRegs_of_eq ha hb, complete]

theorem aluDivide_of_eq (op : Word) (f : Word → Word → Word) (ha : a.toNat = ra.val) (hb : b.toNat = rb.val)
    (h : s.readReg rb ≠ 0) :
    aluDivide op f a b s = .next ((s.writeReg ra (f (s.readReg ra) (s.readReg rb))).advance op) := by
  simp [aluDivide, withRegs_of_eq ha hb, complete, checkDivisor_ne h]

theorem aluDivide_of_zero (op : Word) (f : Word → Word → Word) (ha : a.toNat < 8) (hb : b.toNat = rb.val)
    (h : s.readReg rb = 0) :
    aluDivide op f a b s = .next (s.raiseFault ⟨.divisionByZero, rb.val⟩) := by
  have ha' : a.toNat = (⟨a.toNat, ha⟩ : RegIdx).val := rfl
  simp [aluDivide, withRegs_of_eq ha' hb, checkDivisor_zero h]

/-- A jump sets the pointer, so nothing is advanced. -/
theorem jump_of_eq (op : Word) (cond : Word → Bool) (ha : a.toNat = ra.val) (hp : Opcode.setsPointer op = true) :
    jump op cond a s = .next (s.setPc (if cond s.fl then (s.readReg ra).toNat else s.pc + 2)) := by
  simp only [jump, withReg_of_eq ha, complete, advance_setsPointer hp]
  split <;> rfl

end Named

/-! ## How a shape can end -/

theorem aluUnary_cases (op : Word) (f : Word → Word) (a : Word) (s : State) :
    (∃ ra : RegIdx, a.toNat = ra.val ∧ aluUnary op f a s = .next ((s.writeReg ra (f (s.readReg ra))).advance op)) ∨
    (8 ≤ a.toNat ∧ aluUnary op f a s = .next (s.raiseFault ⟨.registerOutOfRange, a.toNat⟩)) := by
  rcases withReg_cases a s (fun ra => complete op (s.writeReg ra (f (s.readReg ra)))) with ⟨ra, ha, h⟩ | ⟨ha, h⟩
  · exact .inl ⟨ra, ha, h⟩
  · exact .inr ⟨ha, h⟩

theorem aluBinary_cases (op : Word) (f : Word → Word → Word) (a b : Word) (s : State) :
    (∃ ra rb : RegIdx, a.toNat = ra.val ∧ b.toNat = rb.val ∧
      aluBinary op f a b s = .next ((s.writeReg ra (f (s.readReg ra) (s.readReg rb))).advance op)) ∨
    (∃ w : Word, (w = a ∨ w = b) ∧ 8 ≤ w.toNat ∧
      aluBinary op f a b s = .next (s.raiseFault ⟨.registerOutOfRange, w.toNat⟩)) :=
  withRegs_cases a b s fun ra rb => complete op (s.writeReg ra (f (s.readReg ra) (s.readReg rb)))

theorem aluDivide_cases (op : Word) (f : Word → Word → Word) (a b : Word) (s : State) :
    (∃ ra rb : RegIdx, a.toNat = ra.val ∧ b.toNat = rb.val ∧ s.readReg rb ≠ 0 ∧
      aluDivide op f a b s = .next ((s.writeReg ra (f (s.readReg ra) (s.readReg rb))).advance op)) ∨
    (∃ rb : RegIdx, b.toNat = rb.val ∧ s.readReg rb = 0 ∧
      aluDivide op f a b s = .next (s.raiseFault ⟨.divisionByZero, rb.val⟩)) ∨
    (∃ w : Word, (w = a ∨ w = b) ∧ 8 ≤ w.toNat ∧
      aluDivide op f a b s = .next (s.raiseFault ⟨.registerOutOfRange, w.toNat⟩)) := by
  rcases withRegs_cases a b s (fun ra rb =>
    orFault s (checkDivisor s rb) fun _ => complete op (s.writeReg ra (f (s.readReg ra) (s.readReg rb))))
    with ⟨ra, rb, ha, hb, _⟩ | h
  · by_cases hz : s.readReg rb = 0
    · exact .inr (.inl ⟨rb, hb, hz, aluDivide_of_zero s op f (ha ▸ ra.isLt) hb hz⟩)
    · exact .inl ⟨ra, rb, ha, hb, hz, aluDivide_of_eq s op f ha hb hz⟩
  · exact .inr (.inr h)

theorem jump_cases (op : Word) (cond : Word → Bool) (a : Word) (s : State) (hp : Opcode.setsPointer op = true) :
    (∃ ra : RegIdx, a.toNat = ra.val ∧
      jump op cond a s = .next (s.setPc (if cond s.fl then (s.readReg ra).toNat else s.pc + 2))) ∨
    (8 ≤ a.toNat ∧ jump op cond a s = .next (s.raiseFault ⟨.registerOutOfRange, a.toNat⟩)) := by
  by_cases h : a.toNat < 8
  · exact .inl ⟨⟨a.toNat, h⟩, rfl, jump_of_eq s op cond rfl hp⟩
  · exact .inr ⟨by omega, withReg_of_ge (by omega) s _⟩

/-! ## Every meaning, inverted -/

/-- The causes a meaning can raise, with the info R181 names. -/
def RaisedBy (i : Instr) (c : Cause) : Prop :=
  (c.reason = .unimplementedOperation ∧ c.info = i.opcode.toNat ∧ (i = .iret ∨ i = .int ∨ i = .ld ∨ i = .st)) ∨
  (c.reason = .registerOutOfRange ∧ 8 ≤ c.info ∧ c.info < 256) ∨
  (c.reason = .divisionByZero ∧ c.info < 8)

/-- The state an instruction's execute step leaves, before the advance, when it takes no fault. -/
def Executes (i : Instr) (s u : State) : Prop :=
  match i with
  | .nop => u = s
  | .hlt => u = s.stop .halt none
  | .ret => u = (s.setPc (s.readWord s.sp.toNat).toNat).decSp
  | .iret | .int | .ld | .st => False
  | .push a => ∃ ra : RegIdx, a.toNat = ra.val ∧ u = s.incSp.writeWord s.incSp.sp.toNat (s.incSp.readReg ra)
  | .pop a => ∃ ra : RegIdx, a.toNat = ra.val ∧ u = (s.writeReg ra (s.readWord s.sp.toNat)).decSp
  | .prn a => ∃ ra : RegIdx, a.toNat = ra.val ∧ u = s.emit .number (s.readReg ra)
  | .pra a => ∃ ra : RegIdx, a.toNat = ra.val ∧ u = s.emit .alpha (s.readReg ra)
  | .call a => ∃ ra : RegIdx, a.toNat = ra.val ∧
      u = (s.incSp.writeWord s.incSp.sp.toNat (wm ((s.pc : Int) + 2))).setPc (s.incSp.readReg ra).toNat
  | .jmp a => ∃ ra : RegIdx, a.toNat = ra.val ∧ u = s.setPc (s.readReg ra).toNat
  | .jeq a | .jne a | .jgt a | .jlt a | .jle a | .jge a =>
      ∃ ra : RegIdx, a.toNat = ra.val ∧ (u = s.setPc (s.readReg ra).toNat ∨ u = s.setPc (s.pc + 2))
  | .inc a | .dec a | .not a => ∃ (ra : RegIdx) (v : Word), a.toNat = ra.val ∧ u = s.writeReg ra v
  | .ldi a imm => ∃ ra : RegIdx, a.toNat = ra.val ∧ u = s.writeReg ra imm
  | .cmp a b => ∃ ra rb : RegIdx, a.toNat = ra.val ∧ b.toNat = rb.val ∧
      u = s.setFl (Flags.compare (s.readReg ra) (s.readReg rb) s.fl)
  | .add a b | .sub a b | .mul a b | .div a b | .mod a b | .and a b | .or a b | .xor a b | .shl a b | .shr a b =>
      ∃ (ra rb : RegIdx) (v : Word), a.toNat = ra.val ∧ b.toNat = rb.val ∧ u = s.writeReg ra v

/-- How an instruction ends: a fault in the state before it, or its execute step and the advance. -/
def Ends (i : Instr) (s : State) (o : Host.Outcome State Fault Refusal) : Prop :=
  (∃ c, RaisedBy i c ∧ o = .next (s.raiseFault c)) ∨ (∃ u, Executes i s u ∧ o = .next (u.advance i.opcode))

theorem raisedBy_register {i : Instr} {w : Word} (h : 8 ≤ w.toNat) : RaisedBy i ⟨.registerOutOfRange, w.toNat⟩ :=
  .inr (.inl ⟨rfl, h, w.isLt⟩)

theorem ends_unary {i : Instr} {op : Word} {f : Word → Word} {a : Word} {s : State}
    (hx : ∀ (ra : RegIdx) (v : Word), a.toNat = ra.val → Executes i s (s.writeReg ra v)) (ho : i.opcode = op) :
    Ends i s (aluUnary op f a s) := by
  subst ho
  rcases aluUnary_cases i.opcode f a s with ⟨ra, ha, h⟩ | ⟨ha, h⟩
  · exact .inr ⟨_, hx ra _ ha, h⟩
  · exact .inl ⟨_, raisedBy_register ha, h⟩

theorem ends_binary {i : Instr} {op : Word} {f : Word → Word → Word} {a b : Word} {s : State}
    (hx : ∀ (ra rb : RegIdx) (v : Word), a.toNat = ra.val → b.toNat = rb.val → Executes i s (s.writeReg ra v))
    (ho : i.opcode = op) : Ends i s (aluBinary op f a b s) := by
  subst ho
  rcases aluBinary_cases i.opcode f a b s with ⟨ra, rb, ha, hb, h⟩ | ⟨w, _, hw, h⟩
  · exact .inr ⟨_, hx ra rb _ ha hb, h⟩
  · exact .inl ⟨_, raisedBy_register hw, h⟩

theorem ends_divide {i : Instr} {op : Word} {f : Word → Word → Word} {a b : Word} {s : State}
    (hx : ∀ (ra rb : RegIdx) (v : Word), a.toNat = ra.val → b.toNat = rb.val → Executes i s (s.writeReg ra v))
    (ho : i.opcode = op) : Ends i s (aluDivide op f a b s) := by
  subst ho
  rcases aluDivide_cases i.opcode f a b s with ⟨ra, rb, ha, hb, _, h⟩ | ⟨rb, _, _, h⟩ | ⟨w, _, hw, h⟩
  · exact .inr ⟨_, hx ra rb _ ha hb, h⟩
  · exact .inl ⟨⟨.divisionByZero, rb.val⟩, .inr (.inr ⟨rfl, rb.isLt⟩), h⟩
  · exact .inl ⟨_, raisedBy_register hw, h⟩

theorem ends_jump {i : Instr} {op : Word} {cond : Word → Bool} {a : Word} {s : State} (hp : Opcode.setsPointer op = true)
    (ht : ∀ ra : RegIdx, a.toNat = ra.val → cond s.fl = true → Executes i s (s.setPc (s.readReg ra).toNat))
    (hn : ∀ ra : RegIdx, a.toNat = ra.val → cond s.fl = false → Executes i s (s.setPc (s.pc + 2))) (ho : i.opcode = op) :
    Ends i s (jump op cond a s) := by
  rcases jump_cases op cond a s hp with ⟨ra, ha, h⟩ | ⟨ha, h⟩
  · refine .inr ⟨s.setPc (if cond s.fl then (s.readReg ra).toNat else s.pc + 2), ?_, ?_⟩
    · cases hc : cond s.fl with
      | true => simpa [hc] using ht ra ha hc
      | false => simpa [hc] using hn ra ha hc
    · rw [h, ho, advance_setsPointer hp]
  · exact .inl ⟨_, raisedBy_register ha, h⟩

theorem ends_withReg {i : Instr} {a : Word} {s : State} {k : RegIdx → Host.Outcome State Fault Refusal}
    (hk : ∀ ra : RegIdx, a.toNat = ra.val → ∃ u, Executes i s u ∧ k ra = .next (u.advance i.opcode)) :
    Ends i s (withReg a s k) := by
  rcases withReg_cases a s k with ⟨ra, ha, h⟩ | ⟨ha, h⟩
  · exact .inr (h ▸ hk ra ha)
  · exact .inl ⟨_, raisedBy_register ha, h⟩

/-- What every instruction can do: take a fault of its own in the state before it, or execute and advance. -/
theorem exec_ends (i : Instr) (s : State) : Ends i s (exec i s) := by
  cases i with
  | nop => exact .inr ⟨s, rfl, rfl⟩
  | hlt => exact .inr ⟨_, rfl, rfl⟩
  | ret => exact .inr ⟨_, rfl, by rw [execRet_eq, advance_setsPointer (by simp [Instr.opcode])]⟩
  | iret => exact .inl ⟨_, .inl ⟨rfl, rfl, by simp⟩, rfl⟩
  | int => exact .inl ⟨_, .inl ⟨rfl, rfl, by simp⟩, rfl⟩
  | ld => exact .inl ⟨_, .inl ⟨rfl, rfl, by simp⟩, rfl⟩
  | st => exact .inl ⟨_, .inl ⟨rfl, rfl, by simp⟩, rfl⟩
  | push a => exact ends_withReg (i := .push a) fun ra ha => ⟨_, ⟨ra, ha, rfl⟩, by simp [complete, Instr.opcode]⟩
  | pop a => exact ends_withReg (i := .pop a) fun ra ha => ⟨_, ⟨ra, ha, rfl⟩, by simp [complete, Instr.opcode]⟩
  | prn a => exact ends_withReg (i := .prn a) fun ra ha => ⟨_, ⟨ra, ha, rfl⟩, rfl⟩
  | pra a => exact ends_withReg (i := .pra a) fun ra ha => ⟨_, ⟨ra, ha, rfl⟩, rfl⟩
  | call a => exact ends_withReg (i := .call a) fun ra ha => ⟨_, ⟨ra, ha, rfl⟩, by simp [complete, Instr.opcode, State.incSp]⟩
  | jmp a =>
    exact ends_jump (i := .jmp a) (op := Opcode.jmp) (cond := fun _ => true) jmp_fields.2.2 (fun ra ha _ => ⟨ra, ha, rfl⟩)
      (fun _ _ (h : true = false) => by cases h) rfl
  | jeq a =>
    exact ends_jump (i := .jeq a) (by simp) (fun ra ha _ => ⟨ra, ha, .inl rfl⟩) (fun ra ha _ => ⟨ra, ha, .inr rfl⟩) rfl
  | jne a =>
    exact ends_jump (i := .jne a) (by simp) (fun ra ha _ => ⟨ra, ha, .inl rfl⟩) (fun ra ha _ => ⟨ra, ha, .inr rfl⟩) rfl
  | jgt a =>
    exact ends_jump (i := .jgt a) (by simp) (fun ra ha _ => ⟨ra, ha, .inl rfl⟩) (fun ra ha _ => ⟨ra, ha, .inr rfl⟩) rfl
  | jlt a =>
    exact ends_jump (i := .jlt a) (by simp) (fun ra ha _ => ⟨ra, ha, .inl rfl⟩) (fun ra ha _ => ⟨ra, ha, .inr rfl⟩) rfl
  | jle a =>
    exact ends_jump (i := .jle a) (by simp) (fun ra ha _ => ⟨ra, ha, .inl rfl⟩) (fun ra ha _ => ⟨ra, ha, .inr rfl⟩) rfl
  | jge a =>
    exact ends_jump (i := .jge a) (by simp) (fun ra ha _ => ⟨ra, ha, .inl rfl⟩) (fun ra ha _ => ⟨ra, ha, .inr rfl⟩) rfl
  | inc a => exact ends_unary (i := .inc a) (fun ra v ha => ⟨ra, v, ha, rfl⟩) rfl
  | dec a => exact ends_unary (i := .dec a) (fun ra v ha => ⟨ra, v, ha, rfl⟩) rfl
  | not a => exact ends_unary (i := .not a) (fun ra v ha => ⟨ra, v, ha, rfl⟩) rfl
  | ldi a imm => exact ends_withReg (i := .ldi a imm) fun ra ha => ⟨_, ⟨ra, ha, rfl⟩, rfl⟩
  | cmp a b =>
    rcases withRegs_cases a b s (fun ra rb =>
      complete Opcode.cmp (s.setFl (Flags.compare (s.readReg ra) (s.readReg rb) s.fl)))
      with ⟨ra, rb, ha, hb, h⟩ | ⟨w, _, hw, h⟩
    · exact .inr ⟨_, ⟨ra, rb, ha, hb, rfl⟩, h⟩
    · exact .inl ⟨_, raisedBy_register hw, h⟩
  | add a b => exact ends_binary (i := .add a b) (fun ra rb v ha hb => ⟨ra, rb, v, ha, hb, rfl⟩) rfl
  | sub a b => exact ends_binary (i := .sub a b) (fun ra rb v ha hb => ⟨ra, rb, v, ha, hb, rfl⟩) rfl
  | mul a b => exact ends_binary (i := .mul a b) (fun ra rb v ha hb => ⟨ra, rb, v, ha, hb, rfl⟩) rfl
  | and a b => exact ends_binary (i := .and a b) (fun ra rb v ha hb => ⟨ra, rb, v, ha, hb, rfl⟩) rfl
  | or a b => exact ends_binary (i := .or a b) (fun ra rb v ha hb => ⟨ra, rb, v, ha, hb, rfl⟩) rfl
  | xor a b => exact ends_binary (i := .xor a b) (fun ra rb v ha hb => ⟨ra, rb, v, ha, hb, rfl⟩) rfl
  | shl a b => exact ends_binary (i := .shl a b) (fun ra rb v ha hb => ⟨ra, rb, v, ha, hb, rfl⟩) rfl
  | shr a b => exact ends_binary (i := .shr a b) (fun ra rb v ha hb => ⟨ra, rb, v, ha, hb, rfl⟩) rfl
  | div a b => exact ends_divide (i := .div a b) (fun ra rb v ha hb => ⟨ra, rb, v, ha, hb, rfl⟩) rfl
  | mod a b => exact ends_divide (i := .mod a b) (fun ra rb v ha hb => ⟨ra, rb, v, ha, hb, rfl⟩) rfl

/-- The same, of a next state that is given. -/
theorem exec_next {i : Instr} {s t : State} (h : exec i s = .next t) :
    (∃ c, RaisedBy i c ∧ t = s.raiseFault c) ∨ (∃ u, Executes i s u ∧ t = u.advance i.opcode) := by
  have he := exec_ends i s
  rw [h] at he
  rcases he with ⟨c, hc, ho⟩ | ⟨u, hu, ho⟩
  · exact .inl ⟨c, hc, by cases ho; rfl⟩
  · exact .inr ⟨u, hu, by cases ho; rfl⟩

/-! ## What the execute step leaves alone -/

theorem raisedBy_isFault {i : Instr} {c : Cause} (h : RaisedBy i c) : c.reason.isFault = true := by
  rcases h with ⟨h, -⟩ | ⟨h, -⟩ | ⟨h, -⟩ <;> rw [h] <;> rfl

/-- Only HALT changes the run state or the halt record. -/
theorem executes_run {i : Instr} {s u : State} (h : Executes i s u) :
    i = .hlt ∧ u = s.stop .halt none ∨
    u.runState = s.runState ∧ u.haltReason = s.haltReason ∧ u.haltInfo = s.haltInfo := by
  cases i <;> simp only [Executes] at h
  case hlt => exact .inl ⟨rfl, h⟩
  all_goals right
  case nop => subst h; exact ⟨rfl, rfl, rfl⟩
  case ret => subst h; exact ⟨rfl, rfl, rfl⟩
  case jeq | jne | jgt | jlt | jle | jge =>
    obtain ⟨ra, ha, rfl | rfl⟩ := h <;> exact ⟨rfl, rfl, rfl⟩
  case push | pop | prn | pra | call | jmp | ldi => obtain ⟨ra, ha, rfl⟩ := h; exact ⟨rfl, rfl, rfl⟩
  case inc | dec | not => obtain ⟨ra, v, ha, rfl⟩ := h; exact ⟨rfl, rfl, rfl⟩
  case cmp => obtain ⟨ra, rb, ha, hb, rfl⟩ := h; exact ⟨rfl, rfl, rfl⟩
  all_goals obtain ⟨ra, rb, v, ha, hb, rfl⟩ := h; exact ⟨rfl, rfl, rfl⟩

/-- Only COMPARE changes FL. -/
theorem executes_flags {i : Instr} {s u : State} (h : Executes i s u) : (∃ a b, i = .cmp a b) ∨ u.fl = s.fl := by
  cases i <;> simp only [Executes] at h
  case cmp => exact .inl ⟨_, _, rfl⟩
  all_goals right
  case nop | ret | hlt => subst h; rfl
  case jeq | jne | jgt | jlt | jle | jge =>
    obtain ⟨ra, ha, rfl | rfl⟩ := h <;> rfl
  case push | pop | prn | pra | call | jmp | ldi => obtain ⟨ra, ha, rfl⟩ := h; rfl
  case inc | dec | not => obtain ⟨ra, v, ha, rfl⟩ := h; rfl
  all_goals obtain ⟨ra, rb, v, ha, hb, rfl⟩ := h; rfl

/-- Every store keeps the canonical form. -/
theorem executes_wf {i : Instr} {s u : State} (h : Executes i s u) (hm : s.memory.wf = true) :
    u.memory.wf = true := by
  cases i <;> simp only [Executes] at h
  case nop | ret | hlt => subst h; exact hm
  case jeq | jne | jgt | jlt | jle | jge =>
    obtain ⟨ra, ha, rfl | rfl⟩ := h <;> exact hm
  case push | call => obtain ⟨ra, ha, rfl⟩ := h; exact wf_write _ (BitVec.isLt _) hm
  case pop | prn | pra | jmp | ldi => obtain ⟨ra, ha, rfl⟩ := h; exact hm
  case inc | dec | not => obtain ⟨ra, v, ha, rfl⟩ := h; exact hm
  case cmp => obtain ⟨ra, rb, ha, hb, rfl⟩ := h; exact hm
  all_goals obtain ⟨ra, rb, v, ha, hb, rfl⟩ := h; exact hm

/-- An execute step leaves the pc to the advance, or it sets the pointer: to a word, or to the word after its one operand. -/
theorem executes_pc {i : Instr} {s u : State} (h : Executes i s u) :
    (Opcode.setsPointer i.opcode = false ∧ u.pc = s.pc) ∨
    (Opcode.setsPointer i.opcode = true ∧ (u.pc < 256 ∨ u.pc = s.pc + 2 ∧ i.operands.length = 1)) := by
  cases i <;> simp only [Executes] at h
  case nop | hlt => subst h; simp [Instr.opcode]
  case ret => subst h; right; simp [Instr.opcode]; left; exact BitVec.isLt _
  case jeq | jne | jgt | jlt | jle | jge =>
    right
    obtain ⟨ra, ha, rfl | rfl⟩ := h
    · exact ⟨by simp [Instr.opcode], .inl (BitVec.isLt _)⟩
    · exact ⟨by simp [Instr.opcode], .inr ⟨rfl, rfl⟩⟩
  case call | jmp => right; obtain ⟨ra, ha, rfl⟩ := h; exact ⟨by simp [Instr.opcode], .inl (BitVec.isLt _)⟩
  case push | pop | prn | pra | ldi => obtain ⟨ra, ha, rfl⟩ := h; simp [Instr.opcode]
  case inc | dec | not => obtain ⟨ra, v, ha, rfl⟩ := h; simp [Instr.opcode]
  case cmp => obtain ⟨ra, rb, ha, hb, rfl⟩ := h; simp [Instr.opcode]
  all_goals obtain ⟨ra, rb, v, ha, hb, rfl⟩ := h; simp [Instr.opcode]

end Laws

end Sys2Proof
end

