-- ==== Sys2Proof/Laws/Flags.lean ====
section
/-! SUPPORT. What COMPARE leaves in FL (spec/44_alu.md R141). -/

namespace Sys2Proof

namespace Laws

open Machine

/-- COMPARE keeps bits 7:3 and leaves the one flag of the unsigned order. -/
theorem compare_eq (a b fl : Word) :
    Flags.compare a b fl =
      (fl &&& 0xF8) ||| (if a.toNat < b.toNat then 0b100 else if a.toNat = b.toNat then 0b001 else 0b010) := by
  have h : ∀ (lt eq gt : Bool) (fl : Word), (lt, eq, gt) ∈ [(true, false, false), (false, true, false), (false, false, true)] →
      toggleMasked gt (toggleMasked eq (toggleMasked lt fl Flags.ltMask) Flags.eqMask) Flags.gtMask =
        (fl &&& 0xF8) ||| (if lt then 0b100 else if eq then 0b001 else 0b010) := by decide
  have hm : (decide (a.toNat < b.toNat), decide (a.toNat = b.toNat), decide (b.toNat < a.toNat)) ∈
      [(true, false, false), (false, true, false), (false, false, true)] := by
    rcases Nat.lt_trichotomy a.toNat b.toNat with h | h | h
    · simp [h, Nat.ne_of_lt h, Nat.not_lt.mpr (Nat.le_of_lt h)]
    · simp [h]
    · simp [h, Nat.ne_of_gt h, Nat.not_lt.mpr (Nat.le_of_lt h)]
  simpa only [Flags.compare, decide_eq_true_iff] using h _ _ _ fl hm

/-- COMPARE keeps FL legal. -/
theorem compare_legal (a b : Word) {fl : Word} (h : flagsLegal fl = true) : flagsLegal (Flags.compare a b fl) = true := by
  have hz : fl &&& 0xF8 = 0 := by revert h; revert fl; decide
  rw [compare_eq, hz]
  split
  · rfl
  · split <;> rfl

end Laws

end Sys2Proof
end

