-- ==== Sys2Proof/Laws/PerInstr.lean ====
section
/-! SUPPORT. The operation table against the syntax, one lemma per instruction: the opcode is listed, a handler is bound exactly to
the thirty implemented rows (spec/30_encoding.md R68), and their operand words are as many as the ARGS field says (R60, R70). -/

namespace Sys2Proof

namespace Laws

namespace TableRow

/-- The row of the instruction's opcode. -/
def Statement (i : Instr) : Prop :=
  ∃ r ∈ operationTable, lookup i.opcode = some r ∧ r.opcode = i.opcode ∧ r.implemented = Machine.hasHandler i ∧
    (Machine.hasHandler i = true → i.operands.length = Opcode.args i.opcode)

theorem nop : Statement (.nop) :=
  ⟨_, List.mem_of_getElem? (i := 0) rfl, rfl, rfl, rfl, by simp [Machine.hasHandler, Instr.opcode, Instr.operands]⟩

theorem hlt : Statement (.hlt) :=
  ⟨_, List.mem_of_getElem? (i := 1) rfl, rfl, rfl, rfl, by simp [Machine.hasHandler, Instr.opcode, Instr.operands]⟩

theorem ret : Statement (.ret) :=
  ⟨_, List.mem_of_getElem? (i := 2) rfl, rfl, rfl, rfl, by simp [Machine.hasHandler, Instr.opcode, Instr.operands]⟩

theorem iret : Statement (.iret) :=
  ⟨_, List.mem_of_getElem? (i := 3) rfl, rfl, rfl, rfl, by simp [Machine.hasHandler, Instr.opcode, Instr.operands]⟩

theorem push (a : Word) : Statement (.push a) :=
  ⟨_, List.mem_of_getElem? (i := 4) rfl, rfl, rfl, rfl, by simp [Machine.hasHandler, Instr.opcode, Instr.operands]⟩

theorem pop (a : Word) : Statement (.pop a) :=
  ⟨_, List.mem_of_getElem? (i := 5) rfl, rfl, rfl, rfl, by simp [Machine.hasHandler, Instr.opcode, Instr.operands]⟩

theorem prn (a : Word) : Statement (.prn a) :=
  ⟨_, List.mem_of_getElem? (i := 6) rfl, rfl, rfl, rfl, by simp [Machine.hasHandler, Instr.opcode, Instr.operands]⟩

theorem pra (a : Word) : Statement (.pra a) :=
  ⟨_, List.mem_of_getElem? (i := 7) rfl, rfl, rfl, rfl, by simp [Machine.hasHandler, Instr.opcode, Instr.operands]⟩

theorem call (a : Word) : Statement (.call a) :=
  ⟨_, List.mem_of_getElem? (i := 8) rfl, rfl, rfl, rfl, by simp [Machine.hasHandler, Instr.opcode, Instr.operands]⟩

theorem int : Statement (.int) :=
  ⟨_, List.mem_of_getElem? (i := 9) rfl, rfl, rfl, rfl, by simp [Machine.hasHandler, Instr.opcode, Instr.operands]⟩

theorem jmp (a : Word) : Statement (.jmp a) :=
  ⟨_, List.mem_of_getElem? (i := 10) rfl, rfl, rfl, rfl, by simp [Machine.hasHandler, Instr.opcode, Instr.operands]⟩

theorem jeq (a : Word) : Statement (.jeq a) :=
  ⟨_, List.mem_of_getElem? (i := 11) rfl, rfl, rfl, rfl, by simp [Machine.hasHandler, Instr.opcode, Instr.operands]⟩

theorem jne (a : Word) : Statement (.jne a) :=
  ⟨_, List.mem_of_getElem? (i := 12) rfl, rfl, rfl, rfl, by simp [Machine.hasHandler, Instr.opcode, Instr.operands]⟩

theorem jgt (a : Word) : Statement (.jgt a) :=
  ⟨_, List.mem_of_getElem? (i := 13) rfl, rfl, rfl, rfl, by simp [Machine.hasHandler, Instr.opcode, Instr.operands]⟩

theorem jlt (a : Word) : Statement (.jlt a) :=
  ⟨_, List.mem_of_getElem? (i := 14) rfl, rfl, rfl, rfl, by simp [Machine.hasHandler, Instr.opcode, Instr.operands]⟩

theorem jle (a : Word) : Statement (.jle a) :=
  ⟨_, List.mem_of_getElem? (i := 15) rfl, rfl, rfl, rfl, by simp [Machine.hasHandler, Instr.opcode, Instr.operands]⟩

theorem jge (a : Word) : Statement (.jge a) :=
  ⟨_, List.mem_of_getElem? (i := 16) rfl, rfl, rfl, rfl, by simp [Machine.hasHandler, Instr.opcode, Instr.operands]⟩

theorem inc (a : Word) : Statement (.inc a) :=
  ⟨_, List.mem_of_getElem? (i := 17) rfl, rfl, rfl, rfl, by simp [Machine.hasHandler, Instr.opcode, Instr.operands]⟩

theorem dec (a : Word) : Statement (.dec a) :=
  ⟨_, List.mem_of_getElem? (i := 18) rfl, rfl, rfl, rfl, by simp [Machine.hasHandler, Instr.opcode, Instr.operands]⟩

theorem not (a : Word) : Statement (.not a) :=
  ⟨_, List.mem_of_getElem? (i := 19) rfl, rfl, rfl, rfl, by simp [Machine.hasHandler, Instr.opcode, Instr.operands]⟩

theorem ldi (a imm : Word) : Statement (.ldi a imm) :=
  ⟨_, List.mem_of_getElem? (i := 20) rfl, rfl, rfl, rfl, by simp [Machine.hasHandler, Instr.opcode, Instr.operands]⟩

theorem ld : Statement (.ld) :=
  ⟨_, List.mem_of_getElem? (i := 21) rfl, rfl, rfl, rfl, by simp [Machine.hasHandler, Instr.opcode, Instr.operands]⟩

theorem st : Statement (.st) :=
  ⟨_, List.mem_of_getElem? (i := 22) rfl, rfl, rfl, rfl, by simp [Machine.hasHandler, Instr.opcode, Instr.operands]⟩

theorem add (a b : Word) : Statement (.add a b) :=
  ⟨_, List.mem_of_getElem? (i := 23) rfl, rfl, rfl, rfl, by simp [Machine.hasHandler, Instr.opcode, Instr.operands]⟩

theorem sub (a b : Word) : Statement (.sub a b) :=
  ⟨_, List.mem_of_getElem? (i := 24) rfl, rfl, rfl, rfl, by simp [Machine.hasHandler, Instr.opcode, Instr.operands]⟩

theorem mul (a b : Word) : Statement (.mul a b) :=
  ⟨_, List.mem_of_getElem? (i := 25) rfl, rfl, rfl, rfl, by simp [Machine.hasHandler, Instr.opcode, Instr.operands]⟩

theorem div (a b : Word) : Statement (.div a b) :=
  ⟨_, List.mem_of_getElem? (i := 26) rfl, rfl, rfl, rfl, by simp [Machine.hasHandler, Instr.opcode, Instr.operands]⟩

theorem mod (a b : Word) : Statement (.mod a b) :=
  ⟨_, List.mem_of_getElem? (i := 27) rfl, rfl, rfl, rfl, by simp [Machine.hasHandler, Instr.opcode, Instr.operands]⟩

theorem cmp (a b : Word) : Statement (.cmp a b) :=
  ⟨_, List.mem_of_getElem? (i := 28) rfl, rfl, rfl, rfl, by simp [Machine.hasHandler, Instr.opcode, Instr.operands]⟩

theorem and (a b : Word) : Statement (.and a b) :=
  ⟨_, List.mem_of_getElem? (i := 29) rfl, rfl, rfl, rfl, by simp [Machine.hasHandler, Instr.opcode, Instr.operands]⟩

theorem or (a b : Word) : Statement (.or a b) :=
  ⟨_, List.mem_of_getElem? (i := 30) rfl, rfl, rfl, rfl, by simp [Machine.hasHandler, Instr.opcode, Instr.operands]⟩

theorem xor (a b : Word) : Statement (.xor a b) :=
  ⟨_, List.mem_of_getElem? (i := 31) rfl, rfl, rfl, rfl, by simp [Machine.hasHandler, Instr.opcode, Instr.operands]⟩

theorem shl (a b : Word) : Statement (.shl a b) :=
  ⟨_, List.mem_of_getElem? (i := 32) rfl, rfl, rfl, rfl, by simp [Machine.hasHandler, Instr.opcode, Instr.operands]⟩

theorem shr (a b : Word) : Statement (.shr a b) :=
  ⟨_, List.mem_of_getElem? (i := 33) rfl, rfl, rfl, rfl, by simp [Machine.hasHandler, Instr.opcode, Instr.operands]⟩

end TableRow

end Laws

end Sys2Proof
end

