-- ==== Sys2Proof/Laws/Step.lean ====
section
/-! SUPPORT. The run-cycle: what the fetch answers, and a step in terms of it (spec/40_sequencer.md R85 .. R89). -/

namespace Sys2Proof

namespace Laws

open Machine

/-! ## A step is a run-cycle, a run-cycle is the fetched instruction or the fault -/

theorem step_running {s : State} (h : s.runState = .running) : step s = runCycle s := by
  simp [step, h]

theorem runCycle_of_fetch {s : State} {i : Instr} (h : fetchInstr s = .ok i) : runCycle s = exec i s := by
  simp [runCycle, h]

theorem runCycle_of_fault {s : State} {c : Cause} (h : fetchInstr s = .error c) : runCycle s = .next (s.raiseFault c) := by
  simp [runCycle, h]

/-! ## The words from an address on -/

theorem wordsFrom_succ {s : State} {n addr : Nat} (h : addr < 256) :
    s.wordsFrom (n + 1) addr = s.readWord addr :: s.wordsFrom n (addr + 1) := by
  simp [State.wordsFrom, memRead_of_lt h]

theorem wordsFrom_outside {s : State} {n addr : Nat} (h : 256 ≤ addr) : s.wordsFrom n addr = [] := by
  cases n <;> simp [State.wordsFrom, memRead_of_ge h]

/-- Words that stand in memory from an address on are the first of the words read from there. -/
theorem wordsFrom_of_stored (s : State) (n addr : Nat) (ws : List Word) (hn : ws.length ≤ n)
    (h : ∀ (k : Nat) (hk : k < ws.length), addr + k < 256 ∧ s.readWord (addr + k) = ws[k]) :
    ∃ rest, s.wordsFrom n addr = ws ++ rest := by
  induction ws generalizing n addr with
  | nil => exact ⟨_, rfl⟩
  | cons w ws ih =>
    cases n with
    | zero => simp at hn
    | succ n =>
      obtain ⟨rest, hr⟩ := ih n (addr + 1) (by simpa using hn) (fun k hk => by
        have := h (k + 1) (by simpa using hk)
        rw [show addr + 1 + k = addr + (k + 1) by omega]
        simpa using this)
      have h0 := h 0 (by simp)
      simp only [Nat.add_zero, List.getElem_cons_zero] at h0
      exact ⟨rest, by rw [wordsFrom_succ h0.1, hr, h0.2]; rfl⟩

theorem encode_length_le (i : Instr) : (encode i).length ≤ maxWords := by
  cases i <;> simp [encode, Instr.operands, maxWords]

/-! ## The ways a fetch can end -/

theorem fetch_outside {s : State} (h : 256 ≤ s.pc) : fetchInstr s = .error (outOfRange s.pc) := by
  simp [fetchInstr, wordsFrom_outside h, decode_nil]

theorem fetch_unlisted {s : State} (h : s.pc < 256) (hc : contains (s.readWord s.pc) = false) :
    fetchInstr s = .error ⟨.unknownOpcode, (s.readWord s.pc).toNat⟩ := by
  simp [fetchInstr, maxWords, wordsFrom_succ h, decode_unlisted (lookup_none_iff.mpr hc)]

/-- An opcode without a handler is an instruction wherever it stands: no operand is read (R88, R95). -/
theorem fetch_unbound {i : Instr} {s : State} (h : s.pc < 256) (hw : s.readWord s.pc = i.opcode)
    (hh : hasHandler i = false) : fetchInstr s = .ok i := by
  simp only [fetchInstr, maxWords, wordsFrom_succ h, hw]
  cases i <;> simp [hasHandler] at hh <;> rfl

/-- An instruction that does not fit below 256: the first word that is missing is the one at 256 (R89). -/
theorem fetch_past_end {i : Instr} {s : State} (h : s.pc < 256) (hw : s.readWord s.pc = i.opcode)
    (hh : hasHandler i = true) (hl : 256 < s.pc + (encode i).length) : fetchInstr s = .error (outOfRange 256) := by
  simp only [fetchInstr, maxWords, wordsFrom_succ h, hw]
  by_cases h1 : s.pc = 255
  · rw [wordsFrom_outside (by omega : 256 ≤ s.pc + 1), h1]
    cases i <;> simp [hasHandler, encode, Instr.operands, h1] at hh hl <;> rfl
  · have h2 : s.pc = 254 := by
      have := encode_length_le i
      simp only [maxWords] at this
      omega
    rw [wordsFrom_succ (by omega : s.pc + 1 < 256), wordsFrom_outside (by omega : 256 ≤ s.pc + 1 + 1), h2]
    cases i <;> simp [hasHandler, encode, Instr.operands, h2] at hh hl <;> rfl

/-- The words read from an address are fewer than asked for only if they reach the end of the address space. -/
theorem wordsFrom_length (s : State) (n addr : Nat) :
    (s.wordsFrom n addr).length = n ∨ 256 ≤ addr + (s.wordsFrom n addr).length := by
  induction n generalizing addr with
  | zero => exact .inl rfl
  | succ n ih =>
    by_cases h : addr < 256
    · rw [wordsFrom_succ h, List.length_cons]
      rcases ih (addr + 1) with h | h
      · exact .inl (by omega)
      · exact .inr (by omega)
    · exact .inr (by omega)

/-- The causes a fetch can raise, with the info R181 names. -/
theorem fetch_cause {s : State} {c : Cause} (h : fetchInstr s = .error c) :
    (c.reason = .memoryOutOfRange ∧ 256 ≤ c.info) ∨
    (c.reason = .unknownOpcode ∧ c.info < 256 ∧ contains (BitVec.ofNat 8 c.info) = false) := by
  by_cases hpc : 256 ≤ s.pc
  · rw [fetch_outside hpc] at h
    cases h
    exact .inl ⟨rfl, hpc⟩
  · have hlt : s.pc < 256 := by omega
    cases hl : lookup (s.readWord s.pc) with
    | none =>
      have hc := lookup_none_iff.mp hl
      rw [fetch_unlisted hlt hc] at h
      cases h
      exact .inr ⟨rfl, (s.readWord s.pc).isLt, by simpa using hc⟩
    | some r =>
      simp only [fetchInstr, maxWords, wordsFrom_succ hlt, decode_listed hl] at h
      split at h
      · cases h
      · next index hi =>
        cases h
        have := assemble_truncated hi
        have := wordsFrom_length s 2 (s.pc + 1)
        exact .inl ⟨rfl, show 256 ≤ s.pc + index by omega⟩
      · next hi => exact absurd hi (assemble_not_unknown _ _ _)

/-- An instruction that is fetched has its opcode at the pc, and with a handler it ends inside the address space. -/
theorem fetch_ok {s : State} {i : Instr} (h : fetchInstr s = .ok i) :
    s.pc < 256 ∧ s.readWord s.pc = i.opcode ∧ (hasHandler i = true → s.pc + (encode i).length ≤ 256) := by
  have hlt : s.pc < 256 := by
    by_cases hpc : s.pc < 256
    · exact hpc
    · rw [fetch_outside (by omega)] at h
      cases h
  have hw : s.readWord s.pc = i.opcode := by
    cases hl : lookup (s.readWord s.pc) with
    | none =>
      rw [fetch_unlisted hlt (lookup_none_iff.mp hl)] at h
      cases h
    | some r =>
      obtain ⟨hm, ho⟩ := lookup_some hl
      simp only [fetchInstr, maxWords, wordsFrom_succ hlt, decode_listed hl] at h
      split at h
      · next hi =>
        cases h
        rw [assemble_opcode hm hi, ho]
      · cases h
      · cases h
  refine ⟨hlt, hw, fun hh => ?_⟩
  by_cases hl : s.pc + (encode i).length ≤ 256
  · exact hl
  · rw [fetch_past_end hlt hw hh (by omega)] at h
    cases h

/-- The operand-read fault of an instruction with a handler, from its opcode and its number of operands. -/
theorem operandReadFaults_of {i : Instr} {op : Word} {n : Nat} (hh : hasHandler i = true) (ho : i.opcode = op)
    (hn : i.operands.length = n) : OperandReadFaults op n := by
  intro s hs hpc hw hge
  rw [step_running hs, runCycle_of_fault
    (fetch_past_end (i := i) hpc (by rw [hw, ho]) hh (by simp only [encode, List.length_cons, hn]; omega))]
  rfl

end Laws

end Sys2Proof
end

