-- ==== Sys2Proof/Machine/Loader.lean ====
section
/-! DEFINITION. The program image format (spec/30_encoding.md R75): lines of text to the words of a LOAD. The loader is outside
the core; its choices that R75 leaves open are log 15. -/

namespace Sys2Proof

namespace Machine

/-- A blank character of a line (log 15). -/
def isBlank (c : Char) : Bool := c == ' ' || c == '\t' || c == '\r'

/-- The line without its comment, which begins at `#`, and without blank characters at either end. -/
def stripLine (line : List Char) : List Char :=
  let body := (line.takeWhile (fun c => c != '#')).dropWhile isBlank
  (body.reverse.dropWhile isBlank).reverse

/-- The value of binary digits read so far and the digits after them; none if a character is no binary digit. -/
def parseBinary : Nat → List Char → Option Nat
  | value, [] => some value
  | value, '0' :: cs => parseBinary (2 * value) cs
  | value, '1' :: cs => parseBinary (2 * value + 1) cs
  | _, _ :: _ => none

/-- The image of a list of lines: the k-th line that is not blank gives the word at address k; none if one is no binary
number. -/
def parseImage : List (List Char) → Option (List Int)
  | [] => some []
  | line :: lines =>
    match stripLine line with
    | [] => parseImage lines
    | digits =>
      match parseBinary 0 digits, parseImage lines with
      | some v, some vs => some ((v : Int) :: vs)
      | _, _ => none

end Machine

end Sys2Proof
end

