-- ==== Sys2Proof/Tests/Slice0.lean ====
section
/-! SUPPORT. The model's own tests. Expected values come from spec/95_test_vectors.md (its ids stand in the names or docstrings) and
from the encodings of spec/30_encoding.md; the witnesses at the end meet the hypotheses of the obligations. -/

namespace Sys2Proof

namespace Tests

open Machine

/-! ## Helpers -/

/-- A running core, as after reset but for the pc, with words stored from the pc on. -/
def at_ (pc : Nat) (ws : List Word) : State := (({ State.reset with pc := pc } : State).storeWords pc ws).start

/-- The next state of an outcome. -/
def next? (o : Host.Outcome State Fault Refusal) : Option State :=
  match o with
  | .next t => some t
  | .fault _ => none
  | .refused _ => none

/-- One step. -/
def run (s : State) : Option State := next? (step s)

/-- A projection of the state after one step. -/
def see {α : Type} (s : State) (f : State → α) : Option α := (run s).map f

/-- The halt record and the pc. -/
def halt (t : State) : RunState × HaltReason × Option Nat × Nat := (t.runState, t.haltReason, t.haltInfo, t.pc)

/-- x[0] after a two-operand ALU instruction on x[0] = A, x[1] = B. -/
def alu2 (op A B : Word) : Option Word :=
  see (((at_ 0 [op, 0, 1]).writeReg 0 A).writeReg 1 B) (·.readReg 0)

/-- x[0] after the same with both operands register 0. -/
def aluSame (op A : Word) : Option Word := see ((at_ 0 [op, 0, 0]).writeReg 0 A) (·.readReg 0)

/-- x[0] and the pc after a one-operand ALU instruction on x[0] = A. -/
def alu1 (op A : Word) : Option (Word × Nat) := see ((at_ 0 [op, 0]).writeReg 0 A) (fun t => (t.readReg 0, t.pc))

/-- The pc after a jump at 16 to x[2] = 9, for FL = 0, EQ, GT, LT (2.7). -/
def jumps (op : Word) : List (Option Nat) :=
  [0b000, 0b001, 0b010, 0b100].map fun fl => see (((at_ 16 [op, 2]).writeReg 2 9).setFl fl) (·.pc)

/-! ## WellFormed: each check refuses an ill-formed term -/

theorem test_wf_accepts : (Instr.add 7 0).wf = true ∧ (Instr.ldi 7 255).wf = true ∧ Instr.st.wf = true := by decide

theorem test_wf_refuses_one_operand : (Instr.push 8).wf = false ∧ (Instr.prn 8).wf = false ∧ (Instr.call 255).wf = false ∧
    (Instr.jge 8).wf = false ∧ (Instr.not 8).wf = false := by decide

theorem test_wf_refuses_register_of_ldi : (Instr.ldi 8 0).wf = false := by decide

theorem test_wf_refuses_first_operand : (Instr.add 8 0).wf = false ∧ (Instr.shr 8 0).wf = false := by decide

theorem test_wf_refuses_second_operand : (Instr.add 0 8).wf = false ∧ (Instr.cmp 0 8).wf = false := by decide

/-! ## Decoding: words written out bit by bit from the encodings of spec/opcode_table.json -/

theorem test_decode_control : decode [0b00000000] = .ok (.nop, []) ∧ decode [0b00000001] = .ok (.hlt, []) := ⟨rfl, rfl⟩

theorem test_decode_without_handler :
    decode [0b00010011, 1] = .ok (.iret, [1]) ∧ decode [0b01010010, 1] = .ok (.int, [1]) ∧
    decode [0b10000011] = .ok (.ld, []) ∧ decode [0b10000100] = .ok (.st, []) := ⟨rfl, rfl, rfl, rfl⟩

theorem test_decode_stack :
    decode [0b10000010, 3, 42] = .ok (.ldi 3 42, []) ∧ decode [0b01000101, 6] = .ok (.push 6, []) ∧
    decode [0b01000110, 5] = .ok (.pop 5, []) := ⟨rfl, rfl, rfl⟩

theorem test_decode_subroutine : decode [0b01010000, 1] = .ok (.call 1, []) ∧ decode [0b00010001] = .ok (.ret, []) := ⟨rfl, rfl⟩

theorem test_decode_output : decode [0b01000111, 2] = .ok (.prn 2, []) ∧ decode [0b01001000, 3] = .ok (.pra 3, []) := ⟨rfl, rfl⟩

theorem test_decode_alu_one :
    decode [0b01100101, 1] = .ok (.inc 1, []) ∧ decode [0b01100110, 2] = .ok (.dec 2, []) ∧
    decode [0b01101001, 3] = .ok (.not 3, []) := ⟨rfl, rfl, rfl⟩

theorem test_decode_alu_arithmetic :
    decode [0b10100000, 1, 2] = .ok (.add 1 2, []) ∧ decode [0b10100001, 1, 2] = .ok (.sub 1 2, []) ∧
    decode [0b10100010, 1, 2] = .ok (.mul 1 2, []) ∧ decode [0b10100011, 1, 2] = .ok (.div 1 2, []) ∧
    decode [0b10100100, 1, 2] = .ok (.mod 1 2, []) ∧ decode [0b10100111, 1, 2] = .ok (.cmp 1 2, []) :=
  ⟨rfl, rfl, rfl, rfl, rfl, rfl⟩

theorem test_decode_alu_bits :
    decode [0b10101000, 1, 2] = .ok (.and 1 2, []) ∧ decode [0b10101010, 1, 2] = .ok (.or 1 2, []) ∧
    decode [0b10101011, 1, 2] = .ok (.xor 1 2, []) ∧ decode [0b10101100, 1, 2] = .ok (.shl 1 2, []) ∧
    decode [0b10101101, 1, 2] = .ok (.shr 1 2, []) := ⟨rfl, rfl, rfl, rfl, rfl⟩

theorem test_decode_jumps :
    decode [0b01010100, 2] = .ok (.jmp 2, []) ∧ decode [0b01010101, 2] = .ok (.jeq 2, []) ∧
    decode [0b01010110, 2] = .ok (.jne 2, []) ∧ decode [0b01010111, 2] = .ok (.jgt 2, []) ∧
    decode [0b01011000, 2] = .ok (.jlt 2, []) ∧ decode [0b01011001, 2] = .ok (.jle 2, []) ∧
    decode [0b01011010, 2] = .ok (.jge 2, []) := ⟨rfl, rfl, rfl, rfl, rfl, rfl, rfl⟩

/-- Operand words of 8 and above decode (R64); the register check belongs to the execution. -/
theorem test_decode_keeps_operand_words : decode [0xA0, 0x08, 0xFF] = .ok (.add 0x08 0xFF, []) := rfl

/-- Section 2.1: the unlisted words. -/
theorem test_decode_refuses_unlisted :
    decode [0x02] = .error (.unknownOpcode 0x02) ∧ decode [0x10] = .error (.unknownOpcode 0x10) ∧
    decode [0xA5] = .error (.unknownOpcode 0xA5) ∧ decode [0xA9] = .error (.unknownOpcode 0xA9) ∧
    decode [0xC0] = .error (.unknownOpcode 0xC0) ∧ decode [0xFF] = .error (.unknownOpcode 0xFF) :=
  ⟨rfl, rfl, rfl, rfl, rfl, rfl⟩

theorem test_decode_refuses_missing_words :
    decode [] = .error (.truncated 0) ∧ decode [0x47] = .error (.truncated 1) ∧
    decode [0x82] = .error (.truncated 1) ∧ decode [0xA0, 0x00] = .error (.truncated 2) := ⟨rfl, rfl, rfl, rfl⟩

/-- R66: 34 rows in ascending opcode order, so no two are of one word. -/
theorem test_table_rows : operationTable.length = 34 ∧ (operationTable.map (·.opcode.toNat)).Pairwise (· < ·) := by decide

/-- R68: the rows with no handler. -/
theorem test_table_without_handler :
    (operationTable.filter (fun r => !r.implemented)).map (·.code) = ["IRET", "INT", "LD", "ST"] := by decide

/-- W2 and section 2.1: descriptors. -/
theorem test_descriptors :
    (getDescriptor 0x82).map (fun d => (d.args, d.usesAlu, d.setsPointer, d.identifier)) = some (2, false, false, 0x2) ∧
    (getDescriptor 0xA7).map (fun d => (d.args, d.usesAlu, d.setsPointer, d.identifier)) = some (2, true, false, 0x7) ∧
    (getDescriptor 0x5A).map (fun d => (d.args, d.usesAlu, d.setsPointer, d.identifier)) = some (1, false, true, 0xA) ∧
    getDescriptor 0x07 = none := by decide

theorem test_encode : encode (.ldi 0 8) = [0x82, 0x00, 0x08] ∧ encode (.prn 0) = [0x47, 0x00] ∧ encode .hlt = [0x01] ∧
    encode .ld = [0x83] := by decide

/-- The first word is the lowest eight bits. -/
theorem test_decodeTableWord : decodeTableWord 24 0x2A0382 = some (.ldi 3 0x2A) ∧ decodeTableWord 8 0xA0 = some (.add 0 0) ∧
    decodeTableWord 8 0xC0 = none := by decide

theorem test_withFetchWord : (run (State.reset.withFetchWord 24 0x2A0382)).map (fun t => (t.readReg 3, t.pc)) = some (0x2A, 3) := by
  decide

/-! ## The word mask and the bit fields -/

/-- W1. -/
theorem test_wm : wm 300 = 44 ∧ wm 44 = 44 ∧ wm (-1) = 255 ∧ wm 255 = 255 := by decide

/-- R10, past a word and on a negative integer. -/
theorem test_bitfields_integers : Bits.block 4 6 = 0x3C0 ∧ Bits.unblock 4 6 0xABC0 = 0xF ∧ Bits.andMask 0x1FF = 0xFF ∧
    Bits.orMask 0x100 0x201 = 0x301 ∧ Bits.xorMask 0x3FF 0x101 = 0x2FE ∧ Bits.isMaskedBy 0x300 0x100 = true ∧
    Bits.isMaskedBy 0x300 0x101 = false ∧ Bits.toggleMasked true 0x100 0x200 = 0x300 ∧ Bits.toggleMasked false 0x1FF 0x0F = 0xF0 ∧
    Bits.andMask (-1) 0x3C0 = 0x3C0 := by decide

/-- R10, on words. -/
theorem test_bitfields : block 2 6 = 0xC0 ∧ unblock 4 0 0xA7 = 0x7 ∧ unblock 2 6 0xA7 = 2 ∧ isMaskedBy 0xA7 (block 1 5) = true ∧
    toggleMasked true 0b001 0b100 = 0b101 ∧ toggleMasked false 0b101 0b100 = 0b001 ∧ andMask 0xA7 = 0xA7 ∧ orMask 0x01 = 0xFF ∧
    xorMask 0x0F = 0xF0 := by decide

/-! ## The sequencer and the faults (2.2) -/

theorem test_s1_fetch_past_end : see (at_ 256 []) halt = some (.stopped, .memoryOutOfRange, some 256, 256) := by decide

theorem test_s2_no_operand_read : see (at_ 255 [0x84]) halt = some (.stopped, .unimplementedOperation, some 0x84, 255) := by decide

theorem test_s3_operand_past_end : see (at_ 255 [0x47]) halt = some (.stopped, .memoryOutOfRange, some 256, 255) := by decide

theorem test_s4_read_before_check : see (at_ 254 [0xA0, 9]) halt = some (.stopped, .memoryOutOfRange, some 256, 254) := by decide

theorem test_s6_s7_register_check : see (at_ 0 [0xA0, 0, 9]) halt = some (.stopped, .registerOutOfRange, some 9, 0) ∧
    see (at_ 0 [0xA0, 8, 9]) halt = some (.stopped, .registerOutOfRange, some 8, 0) := by decide

theorem test_s8_register_before_divisor : see (at_ 0 [0xA3, 9, 1]) halt = some (.stopped, .registerOutOfRange, some 9, 0) := by decide

theorem test_s12_last_word : see (at_ 253 [0x82, 0, 5]) (fun t => (t.readReg 0, t.pc)) = some (5, 256) := by decide

theorem test_s13_step_while_stopped : run State.reset = some State.reset := by decide

theorem test_s14_start_after_halt :
    see (at_ 5 [0x01]) halt = some (.stopped, .halt, none, 5) ∧
    see (at_ 5 [0x01]) (fun t => halt t.start) = some (.running, .none, none, 5) ∧
    (run (at_ 5 [0x01])).bind (fun t => see t.start halt) = some (.stopped, .halt, none, 5) := by decide

theorem test_s15_external_stop : halt (at_ 3 [0x00]).stopExternally = (.stopped, .externalStop, none, 3) := by decide

theorem test_s16_nop : see (at_ 7 [0x00]) (·.pc) = some 8 := by decide

/-- W9. -/
theorem test_w9_unlisted_word : see ((at_ 0 [0x07]).writeReg 0 9) (fun t => (halt t, t.readReg 0)) =
    some ((.stopped, .unknownOpcode, some 7, 0), 9) := by decide

theorem test_iret_int_ld : see (at_ 0 [0x13]) halt = some (.stopped, .unimplementedOperation, some 0x13, 0) ∧
    see (at_ 0 [0x52]) halt = some (.stopped, .unimplementedOperation, some 0x52, 0) ∧
    see (at_ 0 [0x83]) halt = some (.stopped, .unimplementedOperation, some 0x83, 0) := by decide

/-- R181. -/
theorem test_halt_codes : [HaltReason.none, .halt, .unknownOpcode, .unimplementedOperation, .memoryOutOfRange, .registerOutOfRange,
    .divisionByZero, .externalStop].map HaltReason.code = [0, 1, 2, 3, 4, 5, 6, 7] := by decide

/-! ## Data, stack, subroutines (2.3, 2.4) -/

theorem test_m1_m2_ldi : see (at_ 0 [0x82, 3, 0x2A]) (fun t => (t.readReg 3, t.pc)) = some (42, 3) ∧
    see (at_ 0 [0x82, 7, 0x10]) (·.sp) = some 0x10 := by decide

theorem test_m4_push_wraps : see (((at_ 0 [0x45, 0]).writeReg 7 0xFF).writeReg 0 0x99) (fun t => (t.sp, t.readWord 0)) =
    some (0x00, 0x99) := by decide

theorem test_m5_push_sp : see (at_ 0 [0x45, 7]) (fun t => (t.sp, t.readWord 0xF5)) = some (0xF5, 0xF5) := by decide

theorem test_m7_pop_wraps : see ((at_ 0 [0x46, 2]).writeReg 7 0x00) (fun t => (t.readReg 2, t.sp)) = some (0x46, 0xFF) := by decide

theorem test_m8_pop_sp : see (((at_ 0 [0x46, 7]).writeWord 0xF5 0x10).writeReg 7 0xF5) (·.sp) = some 0x0F := by decide

theorem test_c1_c2_call : see ((at_ 6 [0x50, 1]).writeReg 1 11) (fun t => (t.sp, t.readWord 0xF5, t.pc)) = some (0xF5, 8, 11) ∧
    see ((at_ 254 [0x50, 1]).writeReg 1 0x20) (fun t => (t.sp, t.readWord 0xF5, t.pc)) = some (0xF5, 0, 0x20) := by decide

theorem test_c4_call_sp : see (at_ 0 [0x50, 7]) (fun t => (t.sp, t.readWord 0xF5, t.pc)) = some (0xF5, 2, 0xF5) := by decide

theorem test_c5_ret : see (((at_ 3 [0x11]).writeWord 0xF5 8).writeReg 7 0xF5) (fun t => (t.pc, t.sp)) = some (8, 0xF4) := by decide

theorem test_c7_ret_at_reset : see (at_ 0 [0x11]) (fun t => (t.pc, t.sp)) = some (0, 0xF3) := by decide

/-! ## Output (2.5) -/

theorem test_o1_print_number : see ((at_ 0 [0x47, 0]).writeReg 0 8) (·.out) = some [⟨.number, 8⟩] := by decide

theorem test_o4_print_alpha : see ((at_ 0 [0x48, 2]).writeReg 2 0x41) (·.out) = some [⟨.alpha, 0x41⟩] := by decide

theorem test_o2_to_o6_rendered : OutEvent.render ⟨.number, 255⟩ = ['2', '5', '5'] ∧ OutEvent.render ⟨.number, 42⟩ = ['4', '2'] ∧
    OutEvent.render ⟨.number, 0⟩ = ['0'] ∧ OutEvent.render ⟨.alpha, 0x41⟩ = ['A'] ∧ OutEvent.render ⟨.alpha, 0xE9⟩ = ['é'] := by
  decide

/-! ## The ALU (2.6) -/

theorem test_add : (alu2 0xA0 250 10, alu2 0xA0 255 1, aluSame 0xA0 200) = (some 4, some 0, some 144) := by decide

theorem test_sub : (alu2 0xA1 5 3, alu2 0xA1 3 5, aluSame 0xA1 77) = (some 2, some 254, some 0) := by decide

theorem test_mul : (alu2 0xA2 16 16, alu2 0xA2 200 2, alu2 0xA2 15 17) = (some 0, some 144, some 255) := by decide

theorem test_div : (alu2 0xA3 7 2, alu2 0xA3 200 7, alu2 0xA3 1 255) = (some 3, some 28, some 0) := by decide

theorem test_div_by_zero : see ((at_ 0 [0xA3, 0, 1]).writeReg 0 9) (fun t => (halt t, t.readReg 0)) =
    some ((.stopped, .divisionByZero, some 1, 0), 9) := by decide

theorem test_mod : (alu2 0xA4 7 2, alu2 0xA4 5 7, alu2 0xA4 255 16) = (some 1, some 5, some 15) := by decide

theorem test_mod_by_zero : see ((at_ 0 [0xA4, 0, 1]).writeReg 0 9) halt = some (.stopped, .divisionByZero, some 1, 0) := by decide

theorem test_inc : (alu1 0x65 41, alu1 0x65 255) = (some (42, 2), some (0, 2)) := by decide

theorem test_dec : (alu1 0x66 1, alu1 0x66 0) = (some (0, 2), some (255, 2)) := by decide

theorem test_not : (alu1 0x69 0x0F, alu1 0x69 0x00, alu1 0x69 0x01) = (some (0xF0, 2), some (0xFF, 2), some (0xFE, 2)) := by decide

/-- W3, and GT cleared by a COMPARE of equal values. -/
theorem test_cmp : [(3, 5, 0), (5, 5, 0), (5, 3, 0), (0, 255, 0), (4, 4, 0b010)].map (fun (a, b, fl) =>
      see ((((at_ 0 [0xA7, 0, 1]).writeReg 0 a).writeReg 1 b).setFl fl) (fun t => (t.fl, t.pc))) =
    [some (0b100, 3), some (0b001, 3), some (0b010, 3), some (0b100, 3), some (0b001, 3)] := by decide

theorem test_and : (alu2 0xA8 0xF0 0x3C, aluSame 0xA8 0x5A) = (some 0x30, some 0x5A) := by decide

theorem test_or : (alu2 0xAA 0xF0 0x0F, alu2 0xAA 0 0) = (some 0xFF, some 0) := by decide

theorem test_xor : (alu2 0xAB 0xFF 0x0F, aluSame 0xAB 0x5A) = (some 0xF0, some 0) := by decide

theorem test_shl : (alu2 0xAC 0x81 1, alu2 0xAC 1 7, alu2 0xAC 1 8, alu2 0xAC 0xFF 255, aluSame 0xAC 3) =
    (some 0x02, some 0x80, some 0, some 0, some 24) := by decide

theorem test_shr : (alu2 0xAD 0x80 7, alu2 0xAD 0x80 8, alu2 0xAD 0xFF 4, alu2 0xAD 0x80 1) =
    (some 1, some 0, some 0x0F, some 0x40) := by decide

/-! ## The jumps (2.7): taken to 9, not taken to 18 -/

theorem test_jmp : jumps 0x54 = [some 9, some 9, some 9, some 9] := by decide
theorem test_jeq : jumps 0x55 = [some 18, some 9, some 18, some 18] := by decide
theorem test_jne : jumps 0x56 = [some 18, some 18, some 9, some 9] := by decide
theorem test_jgt : jumps 0x57 = [some 18, some 18, some 9, some 18] := by decide
theorem test_jlt : jumps 0x58 = [some 18, some 18, some 18, some 9] := by decide
theorem test_jle : jumps 0x59 = [some 18, some 9, some 18, some 9] := by decide
theorem test_jge : jumps 0x5A = [some 18, some 9, some 9, some 18] := by decide

/-! ## The host -/

theorem test_memory_canonical : (Memory.write [(3, 1), (9, 2)] 5 7, Memory.write [(3, 1), (9, 2)] 3 0, Memory.wf [(3, 1), (3, 2)],
    Memory.wf [(3, 0)], Memory.wf [(256, 1)]) = ([(3, 1), (5, 7), (9, 2)], [(9, 2)], false, false, false) := by decide

/-- R202: masked words, from address 0. -/
theorem test_load : (next? (hostLoad [300, -1, 0] State.reset)).map (fun t => (t.memory, t.pc)) = some ([(0, 44), (1, 255)], 0) := by
  decide

theorem test_inspect : inspectRegister 7 State.reset = .ok 0xF4 ∧ inspectRegister 8 State.reset = .error (.noSuchRegister 8) ∧
    inspectWord 255 State.reset = .ok 0 ∧ inspectWord 256 State.reset = .error (.noSuchWord 256) := ⟨rfl, rfl, rfl, rfl⟩

/-- R75: the scenario of the source, with comments and blank lines. -/
theorem test_image : parseImage ["# print 8".toList, "10000010 # LDI R0, 8".toList, "00000000".toList, "".toList,
    "00001000\r".toList] = some [0x82, 0, 8] := by decide

theorem test_image_refuses : parseImage ["10000012".toList] = none := by decide

/-! ## Witnesses: for each obligation with hypotheses, a concrete state and operands that meet them -/

/-- The hypotheses about a listed opcode with one register operand: a named register, at 7; no register, at 8; and an operand word
that does not exist, with the opcode at 255. -/
abbrev OneOperandMet (op : Word) (s e : State) : Prop :=
  (s.runState = .running ∧ (7 : Word).toNat = RegIdx.sp.val ∧ 8 ≤ (8 : Word).toNat) ∧
  (e.runState = .running ∧ e.pc < 256 ∧ e.readWord e.pc = op ∧ 256 ≤ e.pc + 1)

/-- The same of two operands, the last operand word missing, with the opcode at 254. -/
abbrev TwoOperandsMet (op : Word) (s e : State) : Prop :=
  (s.runState = .running ∧ (7 : Word).toNat = RegIdx.sp.val ∧ (0 : Word).toNat = (0 : RegIdx).val ∧
    8 ≤ (8 : Word).toNat ∧ (7 : Word).toNat < 8 ∧ 8 ≤ (255 : Word).toNat) ∧
  (e.runState = .running ∧ e.pc < 256 ∧ e.readWord e.pc = op ∧ 256 ≤ e.pc + 2)

theorem witness_DescriptorReencodes : (⟨Opcode.nop, some "NOP", "NOP", .f0 .nop⟩ : Row) ∈ operationTable := by
  simp [operationTable]

theorem witness_UnlistedWordHalts :
    (at_ 255 [0xFF]).runState = .running ∧ (at_ 255 [0xFF]).pc < 256 ∧
    contains ((at_ 255 [0xFF]).readWord (at_ 255 [0xFF]).pc) = false := by decide

theorem witness_StepRunsDecodedInstruction :
    (at_ 253 [0x82, 7, 9]).runState = .running ∧ Placed (.ldi 7 9) (at_ 253 [0x82, 7, 9]) := by
  unfold Placed; decide

theorem witness_StepWhileStoppedHasNoEffect : State.reset.runState = .stopped := rfl

/-- One state for each clause, in order. -/
theorem witness_FaultPriority :
    (at_ 256 []).runState = .running ∧ 256 ≤ (at_ 256 []).pc ∧
    (at_ 255 [2]).pc < 256 ∧ contains ((at_ 255 [2]).readWord 255) = false ∧
    (at_ 255 [0x84]).readWord 255 = Instr.opcode .st ∧ hasHandler .st = false ∧
    (at_ 254 [0xA0]).readWord 254 = (Instr.add 0 0).opcode ∧ hasHandler (.add 0 0) = true ∧
      256 < 254 + (encode (.add 0 0)).length ∧
    (∀ (k : Nat) (h : k < (encode (.add 7 8)).length), 253 + k < 256 ∧
      (at_ 253 [0xA0, 7, 8]).readWord (253 + k) = (encode (.add 7 8))[k]) ∧
      (Instr.add 7 8).regOperands.find? (fun v => !namesReg v) = some 8 ∧
    (Instr.div 0 5).wf = true ∧ (5 : Word).toNat = RegIdx.im.val ∧ (at_ 0 [0xA3, 0, 5]).readReg RegIdx.im = 0 ∧
    (Instr.div 0 7).wf = true ∧ (at_ 0 [0xA3, 0, 7]).readReg RegIdx.sp ≠ 0 := by decide

theorem witness_FaultPriority_placed : Placed (.div 0 5) (at_ 0 [0xA3, 0, 5]) ∧ Placed (.div 0 7) (at_ 0 [0xA3, 0, 7]) ∧
    Placed .hlt (at_ 255 [1]) ∧ hasHandler (.div 0 7) = true ∧
    (∀ (a b : Word) (rb : RegIdx), Instr.hlt = .div a b ∨ Instr.hlt = .mod a b → b.toNat = rb.val →
      (at_ 255 [1]).readReg rb ≠ 0) := by
  refine ⟨by unfold Placed; decide, by unfold Placed; decide, by unfold Placed; decide, rfl, ?_⟩
  intro a b rb h
  rcases h with h | h <;> cases h

/-- Sequential, taken, not taken, RET, stopped. -/
theorem witness_SequentialAdvance :
    (see (at_ 255 [0]) (·.runState) = some .running ∧ Opcode.setsPointer (Instr.opcode .nop) = false) ∧
    (see (at_ 254 [0x54, 7]) (·.runState) = some .running ∧ Opcode.setsPointer (Instr.jmp 7).opcode = true) ∧
    (see (at_ 254 [0x55, 7]) (·.runState) = some .running ∧ Opcode.setsPointer (Instr.jeq 7).opcode = true) ∧
    (see (at_ 255 [0x11]) (·.runState) = some .running ∧ Opcode.setsPointer (Instr.opcode .ret) = true) ∧
    see (at_ 255 [1]) (·.runState) = some .stopped := by decide

theorem witness_StopsArePrecise : (at_ 0 [1]).runState = .running ∧ (run (at_ 0 [1])).isSome = true ∧
    (at_ 0 [7]).runState = .running ∧ (run (at_ 0 [7])).isSome = true ∧ (run (at_ 0 [0])).isSome = true := by decide

theorem witness_StepKeepsInvariant : Legal (at_ 254 [0x50, 7]) ∧ (run (at_ 254 [0x50, 7])).isSome = true :=
  ⟨⟨by decide, by decide, by decide, by decide⟩, by decide⟩

theorem witness_HostTransactionsKeepInvariant : Legal State.reset ∧
    (next? (transact 2 (.load [1, 300]) State.reset)).isSome = true ∧ (next? (transact 2 .run State.reset)).isSome = true :=
  ⟨⟨by decide, by decide, by decide, by decide⟩, by decide, by decide⟩

theorem witness_PointerNeverPasses256 : (at_ 256 []).pc ≤ 256 ∧ (run (at_ 256 [])).isSome = true := by decide

theorem witness_FlagsWrittenByCompareReadByJumps :
    (next? (exec (.add 7 0) (at_ 0 []))).isSome = true ∧ (7 : Word).toNat = RegIdx.sp.val ∧
    (next? (exec (.cmp 7 7) (at_ 0 []))).isSome = true ∧ isConditionalJump (.cmp 7 7) = false := by decide

theorem witness_RegistersChangeOnlyWhereNamed :
    (next? (exec (.inc 6) (at_ 0 []))).map (·.readReg RegIdx.is) = some 1 ∧ (at_ 0 []).readReg RegIdx.is = 0 ∧
    (next? (exec (.push 0) (at_ 0 []))).map (·.sp) = some 0xF5 ∧ (at_ 0 []).sp = 0xF4 := by decide

theorem witness_InterruptRegistersCarryNoFunction :
    (∀ w ∈ (Instr.add 0 7).regOperands, w.toNat ≠ RegIdx.is.val ∧ w.toNat ≠ RegIdx.im.val) ∧
    (next? (exec (.add 0 7) (at_ 0 []))).isSome = true := by decide

theorem witness_MemoryChangesOnlyAtTheStack :
    storeAddress (.call 7) ((at_ 0 []).writeReg 7 0xFF) = some 0 ∧ storeAddress (.pop 7) (at_ 0 []) = none ∧
    (next? (exec (.call 7) ((at_ 0 []).writeReg 7 0xFF))).isSome = true ∧ (next? (exec (.pop 7) (at_ 0 []))).isSome = true := by
  decide

theorem witness_OutputGrowsByOneEvent : (next? (exec (.prn 7) (at_ 0 []))).isSome = true ∧
    sentEvent (.prn 7) (at_ 0 []) = some ⟨.number, 0xF4⟩ ∧ sentEvent (.prn 8) (at_ 0 []) = none := by decide

theorem witness_UnimplementedOperationsHalt :
    [0x13, 0x52, 0x83, 0x84].all (fun n => decide ((at_ 255 [BitVec.ofNat 8 n]).runState = .running ∧
      (at_ 255 [BitVec.ofNat 8 n]).pc < 256 ∧ (at_ 255 [BitVec.ofNat 8 n]).readWord 255 = BitVec.ofNat 8 n)) = true := by decide

theorem witness_NopOnlyAdvances : (at_ 255 [0]).runState = .running ∧ (at_ 255 [0]).pc = 255 ∧ (at_ 255 [0]).readWord 255 = 0x00 := by
  decide

theorem witness_HaltStops : (at_ 255 [1]).runState = .running ∧ Placed .hlt (at_ 255 [1]) := by
  unfold Placed; decide

theorem witness_LoadImmediate : TwoOperandsMet 0x82 (at_ 0 []) (at_ 254 [0x82, 8]) := by decide

theorem witness_PushStoresAboveStackPointer : OneOperandMet 0x45 (at_ 0 []) (at_ 255 [0x45]) := by decide

theorem witness_PopReadsAtStackPointer : OneOperandMet 0x46 (at_ 0 []) (at_ 255 [0x46]) ∧ (0 : RegIdx) ≠ RegIdx.sp := by decide

theorem witness_PushThenPopRestores : (6 : Word).toNat = (6 : RegIdx).val ∧ (0 : Word).toNat = (0 : RegIdx).val ∧
    (6 : RegIdx) ≠ RegIdx.sp ∧ (0 : RegIdx) ≠ RegIdx.sp ∧ ((at_ 0 []).writeReg 7 0xFF).runState = .running := by decide

theorem witness_CallStoresReturnAddress : OneOperandMet 0x50 (at_ 254 []) (at_ 255 [0x50]) := by decide

theorem witness_ReturnTakesPointerFromStack : (at_ 255 [0x11]).runState = .running := rfl

/-- The state a CALL leaves is itself such a state; call sites 253 and 254. -/
theorem witness_CallThenReturnGoesBack : (at_ 253 []).runState = .running ∧ (7 : Word).toNat < 8 ∧ (at_ 253 []).pc ≤ 253 ∧
    (next? (exec (.call 7) (at_ 253 []))).map (·.runState) = some .running ∧ (at_ 254 []).pc = 254 ∧
    (next? (exec (.call 7) (at_ 254 []))).map (·.runState) = some .running := by decide

theorem witness_PrintSendsOneEvent : OneOperandMet 0x47 (at_ 0 []) (at_ 255 [0x47]) ∧
    OneOperandMet 0x48 (at_ 0 []) (at_ 255 [0x48]) := by decide

theorem witness_IncrementAndDecrementWrap : OneOperandMet 0x65 (at_ 0 []) (at_ 255 [0x65]) ∧
    OneOperandMet 0x66 (at_ 0 []) (at_ 255 [0x66]) := by decide

theorem witness_NotComplementsEveryBit : OneOperandMet 0x69 (at_ 0 []) (at_ 255 [0x69]) ∧
    (next? (exec (.not 7) (at_ 0 []))).isSome = true ∧ 7 < 8 := by decide

theorem witness_AddWraps : TwoOperandsMet 0xA0 (at_ 0 []) (at_ 254 [0xA0]) := by decide

theorem witness_SubtractWraps : TwoOperandsMet 0xA1 (at_ 0 []) (at_ 254 [0xA1]) := by decide

theorem witness_MultiplyKeepsLowByte : TwoOperandsMet 0xA2 (at_ 0 []) (at_ 254 [0xA2]) := by decide

theorem witness_DivideFloorsOrFaults : TwoOperandsMet 0xA3 (at_ 0 []) (at_ 254 [0xA3]) ∧
    ((at_ 0 []).readReg RegIdx.sp).toNat ≠ 0 ∧ (at_ 0 []).readReg 0 = 0 := by decide

theorem witness_ModuloRemainderOrFaults : TwoOperandsMet 0xA4 (at_ 0 []) (at_ 254 [0xA4]) ∧
    ((at_ 0 []).readReg RegIdx.sp).toNat ≠ 0 ∧ (at_ 0 []).readReg 0 = 0 := by decide

theorem witness_CompareLeavesOneFlag : TwoOperandsMet 0xA7 (at_ 0 []) (at_ 254 [0xA7]) ∧ ((at_ 0 []).setFl 4).fl.toNat < 8 := by decide

theorem witness_BitwiseOperations : TwoOperandsMet 0xA8 (at_ 0 []) (at_ 254 [0xA8]) ∧
    TwoOperandsMet 0xAA (at_ 0 []) (at_ 254 [0xAA]) ∧ TwoOperandsMet 0xAB (at_ 0 []) (at_ 254 [0xAB]) := by decide

theorem witness_ShiftLeftByWholeWord : TwoOperandsMet 0xAC (at_ 0 []) (at_ 254 [0xAC]) := by decide

theorem witness_ShiftRightByWholeWord : TwoOperandsMet 0xAD (at_ 0 []) (at_ 254 [0xAD]) := by decide

theorem witness_AluDispatchByIdentifier :
    Opcode.usesAlu (Instr.not 7).opcode = true ∧ (Instr.not 7).operands = [7] ∧
    Opcode.usesAlu (Instr.div 0 7).opcode = true ∧ (Instr.div 0 7).operands = [0, 7] ∧ (7 : Word).toNat = RegIdx.sp.val := by decide

theorem witness_JumpAlwaysTaken : OneOperandMet 0x54 (at_ 254 []) (at_ 255 [0x54]) := by decide

/-- And FL with the flag, and without it. -/
theorem witness_JumpsOnOneFlag : OneOperandMet 0x55 (at_ 254 []) (at_ 255 [0x55]) ∧ OneOperandMet 0x57 (at_ 254 []) (at_ 255 [0x57]) ∧
    OneOperandMet 0x58 (at_ 254 []) (at_ 255 [0x58]) ∧ ((at_ 254 []).setFl 1).fl.getLsbD 0 = true ∧
    ((at_ 254 []).setFl 2).fl.getLsbD 1 = true ∧ ((at_ 254 []).setFl 4).fl.getLsbD 2 = true ∧
    ¬ (at_ 254 []).fl.getLsbD 0 = true := by decide

theorem witness_JumpsOnEitherOfTwoFlags : OneOperandMet 0x56 (at_ 254 []) (at_ 255 [0x56]) ∧
    OneOperandMet 0x59 (at_ 254 []) (at_ 255 [0x59]) ∧ OneOperandMet 0x5A (at_ 254 []) (at_ 255 [0x5A]) ∧
    ((4 : Word).getLsbD 2 = true ∨ (4 : Word).getLsbD 1 = true) ∧ ¬ ((0 : Word).getLsbD 0 = true ∨ (0 : Word).getLsbD 1 = true) := by
  decide

theorem witness_FlagPrimitives : (0b100 : Word) = 0b001 ∨ (0b100 : Word) = 0b010 ∨ (0b100 : Word) = 0b100 := by decide

theorem witness_MemoryReadAfterWrite : 255 < 256 ∧ 256 ≤ 256 ∧ 0 ≠ 255 ∧ (at_ 0 [1]).memory.wf = true := by decide

theorem witness_StartAndStop : State.reset.runState = .stopped ∧ (at_ 0 []).runState = .running := by decide

theorem witness_LoadWritesFromZero : (List.replicate 256 (-1 : Int)).length ≤ 256 ∧ 255 < (List.replicate 256 (-1 : Int)).length ∧
    256 < (List.replicate 257 (0 : Int)).length := by
  simp only [List.length_replicate]; omega

theorem witness_BootRunsFirstInstruction : (encode (.ldi 0 8) ++ [0x47, 0x00, 0x01]).length ≤ 256 ∧
    (next? (hostLoad ((encode (.ldi 0 8) ++ [0x47, 0x00, 0x01]).map (fun w : Word => (w.toNat : Int))) (hostReset State.reset))).isSome =
      true := by decide

/-- A HALT ends a RUN after one run-cycle; and a JMP to its own address. -/
theorem witness_RunReturnsAtMostOnce : RunEnds (at_ 0 [1]) ((at_ 0 [1]).stop .halt none) ∧
    (7 : Word).toNat = RegIdx.sp.val ∧ Placed (.jmp 7) (at_ 0xF4 [0x54, 7]) ∧
    ((at_ 0xF4 [0x54, 7]).readReg RegIdx.sp).toNat = (at_ 0xF4 [0x54, 7]).pc :=
  ⟨⟨1, rfl, rfl⟩, rfl, by unfold Placed; decide, rfl⟩

end Tests

end Sys2Proof
end

section
/-! PROOFS. The word mask, the bit-field primitives and the host transactions (spec/00_scope.md R5, R9, R10). -/

namespace Sys2Proof

namespace Proofs

open Machine Laws

/-! ## The word mask (R9) -/

/-- Settles O1: `wm` is the remainder (`wm_toInt`), and leaves a word's own value alone (`wm_word`). -/
theorem wordMaskIsRemainder : Obligations.WordMaskIsRemainder := by
  intro v
  exact ⟨wm_toInt v, wm_word (wm v), (wm v).isLt⟩

/-! ## The bit-field primitives (R10) -/

theorem one_shiftLeft_eq_two_pow (n : Nat) : (1 : Int) <<< n = 2 ^ n := by
  rw [Int.shiftLeft_eq, Int.one_mul]

theorem bits_block_eq (width shift : Nat) : Bits.block width shift = (2 ^ width - 1) * 2 ^ shift := by
  rw [Bits.block, Int.shiftLeft_eq, one_shiftLeft_eq_two_pow]

/-- The field's mask is the remainder modulo `2 ^ width`, and the shift down is the floor division. -/
theorem bits_unblock_eq (width shift : Nat) (v : Int) :
    Bits.unblock width shift v = v / 2 ^ shift % 2 ^ width := by
  rw [Bits.unblock, one_shiftLeft_eq_two_pow, and_low, Int.shiftRight_eq_div_pow, Int.natCast_pow, Int.cast_ofNat_Int]

theorem bit_iff (v : Int) (k : Nat) : Bits.bit v k = true ↔ v / 2 ^ k % 2 = 1 := by
  rw [Bits.bit, beq_iff_eq, Int.shiftRight_eq_div_pow, Int.natCast_pow, Int.cast_ofNat_Int]

/-- The full word has the bits below 8. -/
theorem bit_wordMask (k : Nat) : Bits.bit Bits.wordMask k = decide (k < 8) :=
  (bit_ofNat (2 ^ 8 - 1) k).trans (Nat.testBit_two_pow_sub_one 8 k)

theorem bit_clearMask (v m : Int) (k : Nat) :
    Bits.bit (Bits.clearMask v m) k = (Bits.bit v k && !Bits.bit m k && decide (k < 8)) := by
  rw [Bits.clearMask, bit_and, bit_and, bit_not, bit_wordMask]

/-- `v & m = m` bit by bit: two integers with the same bits are equal. -/
theorem bits_isMaskedBy_iff (v m : Int) :
    Bits.isMaskedBy v m = true ↔ ∀ k, Bits.bit m k = true → Bits.bit v k = true := by
  have hbit (k : Nat) : Bits.bit (Bits.and v m) k = Bits.bit m k ↔ (Bits.bit m k = true → Bits.bit v k = true) := by
    rw [bit_and, Bool.and_eq_right_iff_imp]
  rw [Bits.isMaskedBy, beq_iff_eq]
  constructor
  · intro h k
    exact (hbit k).mp (by rw [h])
  · intro h
    exact bit_ext fun k => (hbit k).mpr (h k)

theorem isMaskedBy_iff (v m : Word) : isMaskedBy v m = true ↔ v &&& m = m := by
  rw [isMaskedBy_eq, beq_iff_eq]

/-- Settles O2: each primitive on integers by its arithmetic or its bits, and on words by the operator of the word. -/
theorem bitfieldPrimitives : Obligations.BitfieldPrimitives := by
  refine ⟨bits_block_eq, bits_unblock_eq, bit_iff, fun v m k => ?_, bits_isMaskedBy_iff, fun v => ?_, fun v m on => ?_⟩
  · exact ⟨bit_and v m k, bit_or v m k, bit_xor v m k, bit_or v m k, bit_clearMask v m k⟩
  · exact ⟨rfl, rfl, rfl, rfl, fun on => rfl⟩
  · exact ⟨andMask_eq v m, orMask_eq v m, xorMask_eq v m, isMaskedBy_iff v m, toggleMasked_eq on v m⟩

/-! ## What a step can do, for any state -/

/-- A step leaves a stopped core as it is; in a running one the fetch faults, or the fetched instruction runs. -/
theorem step_next {s t : State} (h : step s = .next t) :
    (s.runState = .stopped ∧ t = s) ∨
    (s.runState = .running ∧ ∃ c, fetchInstr s = .error c ∧ t = s.raiseFault c) ∨
    (s.runState = .running ∧ ∃ i, fetchInstr s = .ok i ∧ exec i s = .next t) := by
  cases hs : s.runState with
  | stopped =>
    simp only [step, hs, Host.Outcome.next.injEq] at h
    exact .inl ⟨rfl, h.symm⟩
  | running =>
    rw [step_running hs] at h
    cases hf : fetchInstr s with
    | error c =>
      rw [runCycle_of_fault hf, Host.Outcome.next.injEq] at h
      exact .inr (.inl ⟨rfl, c, rfl, h.symm⟩)
    | ok i => exact .inr (.inr ⟨rfl, i, rfl, runCycle_of_fetch hf ▸ h⟩)

/-! ## The pc after an instruction that was fetched (R89, R91) -/

/-- Only an instruction with a handler has an execute step (R95). -/
theorem executes_hasHandler {i : Instr} {s u : State} (h : Executes i s u) : hasHandler i = true := by
  cases i
  case iret | int | ld | st => exact h.elim
  all_goals rfl

/-- An instruction with a handler has as many operand words as its ARGS field says (R60). -/
theorem operands_length_eq_args {i : Instr} (h : hasHandler i = true) : i.operands.length = Opcode.args i.opcode := by
  cases i
  case iret | int | ld | st => cases h
  all_goals simp [Instr.operands, Instr.opcode]

/-- The advance goes past words that exist, and a pointer that is set is a word or the address after the one operand. -/
theorem executes_advance_pc_le {i : Instr} {s u : State} (hf : fetchInstr s = .ok i) (hx : Executes i s u) :
    (u.advance i.opcode).pc ≤ 256 := by
  have hh := executes_hasHandler hx
  obtain ⟨hlt, -, hend⟩ := fetch_ok hf
  have hfits : s.pc + (i.operands.length + 1) ≤ 256 := hend hh
  rcases executes_pc hx with ⟨hp, hpc⟩ | ⟨hp, hpc⟩
  · have hargs := operands_length_eq_args hh
    cases hr : u.runState with
    | running => rw [advance_pc hr hp]; omega
    | stopped => rw [advance_stopped hr]; omega
  · rw [advance_setsPointer hp]
    omega

/-! ## The halt record (R181) -/

/-- The halt record is judged by the run state and the record alone. -/
theorem haltRecordLegal_of_sameRun {s t : State} (h : SameRun s t) (hs : haltRecordLegal s = true) :
    haltRecordLegal t = true := by
  obtain ⟨hrun, hreason, hinfo⟩ := h
  unfold haltRecordLegal at hs ⊢
  rw [hrun, hreason, hinfo]
  exact hs

/-- A fault of the fetch stops the core with the info R181 names. -/
theorem haltRecordLegal_of_fetch {s : State} {c : Cause} (h : fetchInstr s = .error c) :
    haltRecordLegal (s.raiseFault c) = true := by
  obtain ⟨reason, info⟩ := c
  rcases fetch_cause h with ⟨rfl, hi⟩ | ⟨rfl, hi, hc⟩
  · simpa [haltRecordLegal] using hi
  · simpa [haltRecordLegal] using ⟨hi, hc⟩

/-- A fault of an instruction stops the core with the info R181 names. -/
theorem haltRecordLegal_of_raisedBy {i : Instr} {c : Cause} (s : State) (h : RaisedBy i c) :
    haltRecordLegal (s.raiseFault c) = true := by
  obtain ⟨reason, info⟩ := c
  rcases h with ⟨rfl, rfl, rfl | rfl | rfl | rfl⟩ | ⟨rfl, hlo, hhi⟩ | ⟨rfl, hi⟩
  · rfl
  · rfl
  · rfl
  · rfl
  · simpa [haltRecordLegal] using ⟨hlo, hhi⟩
  · simpa [haltRecordLegal] using hi

/-! ## What keeps a state legal -/

/-- A stop with a halt record that is legal keeps the state legal: it changes nothing else. -/
theorem legal_stop {s : State} (hs : Legal s) {reason : HaltReason} {info : Option Nat}
    (h : haltRecordLegal (s.stop reason info) = true) : Legal (s.stop reason info) :=
  ⟨hs.memory, hs.flags, hs.pointer, h⟩

/-- COMPARE leaves a legal FL, and no other instruction writes it. -/
theorem executes_flagsLegal {i : Instr} {s u : State} (hx : Executes i s u) (hs : flagsLegal s.fl = true) :
    flagsLegal u.fl = true := by
  rcases executes_flags hx with ⟨a, b, rfl⟩ | hfl
  · obtain ⟨ra, rb, -, -, rfl⟩ := hx
    exact compare_legal _ _ hs
  · rw [hfl]
    exact hs

theorem executes_haltRecordLegal {i : Instr} {s u : State} (hx : Executes i s u) (hs : haltRecordLegal s = true) :
    haltRecordLegal u = true := by
  rcases executes_run hx with ⟨-, rfl⟩ | hsame
  · rfl
  · exact haltRecordLegal_of_sameRun hsame hs

theorem legal_advance_of_executes {i : Instr} {s u : State} (hs : Legal s) (hf : fetchInstr s = .ok i)
    (hx : Executes i s u) : Legal (u.advance i.opcode) where
  memory := by rw [advance_memory]; exact executes_wf hx hs.memory
  flags := by rw [advance_fl]; exact executes_flagsLegal hx hs.flags
  pointer := Nat.le_trans (executes_advance_pc_le hf hx) (by decide)
  halt := haltRecordLegal_of_sameRun ⟨advance_runState .., advance_haltReason .., advance_haltInfo ..⟩
    (executes_haltRecordLegal hx hs.halt)

/-- A step keeps a legal state legal, however it ends: no effect, a fault of the fetch, a fault of the instruction, or its
execute step and the advance. -/
theorem step_legal {s t : State} (hs : Legal s) (h : step s = .next t) : Legal t := by
  rcases step_next h with ⟨-, rfl⟩ | ⟨-, c, hf, rfl⟩ | ⟨-, i, hf, hx⟩
  · exact hs
  · exact legal_stop hs (haltRecordLegal_of_fetch hf)
  · rcases exec_next hx with ⟨c, hc, rfl⟩ | ⟨u, hu, rfl⟩
    · exact legal_stop hs (haltRecordLegal_of_raisedBy s hc)
    · exact legal_advance_of_executes hs hf hu

/-! ## The host transactions (R5) -/

theorem legal_reset : Legal State.reset := ⟨rfl, rfl, by decide, rfl⟩

theorem legal_start {s : State} (hs : Legal s) : Legal s.start := by
  cases hr : s.runState with
  | running => rw [start_of_running hr]; exact hs
  | stopped => rw [start_of_stopped hr]; exact ⟨hs.memory, hs.flags, hs.pointer, rfl⟩

theorem legal_stopExternally {s : State} (hs : Legal s) : Legal s.stopExternally := by
  cases hr : s.runState with
  | running => simpa only [State.stopExternally, hr] using legal_stop hs (reason := .externalStop) rfl
  | stopped => simpa only [State.stopExternally, hr] using hs

theorem legal_storeWords {s : State} (hs : Legal s) (addr : Nat) (ws : List Word) : Legal (s.storeWords addr ws) :=
  ⟨wf_writeFrom ws addr hs.memory, hs.flags, hs.pointer, hs.halt⟩

/-- LOAD stores words, or is refused as a whole (R202). -/
theorem legal_hostLoad {s t : State} {words : List Int} (hs : Legal s) (h : hostLoad words s = .next t) : Legal t := by
  unfold hostLoad at h
  split at h
  · cases h
    exact legal_storeWords hs 0 _
  · cases h

/-- Any number of run-cycles: the invariant is carried through each. -/
theorem legal_cycles {n : Nat} {s t : State} (hs : Legal s) (h : cycles n s = .next t) : Legal t := by
  induction n generalizing s with
  | zero =>
    cases h
    exact hs
  | succ n ih =>
    simp only [cycles] at h
    split at h
    · next s' hstep => exact ih (step_legal hs hstep) h
    · cases h
    · cases h

/-- Settles O15, one transaction of R5 at a time. -/
theorem hostTransactionsKeepInvariant : Obligations.HostTransactionsKeepInvariant := by
  intro n c s t hs h
  cases c with
  | reset => cases h; exact legal_reset
  | load words => exact legal_hostLoad hs h
  | start => cases h; exact legal_start hs
  | stop => cases h; exact legal_stopExternally hs
  | step => exact step_legal hs h
  | run => exact legal_cycles (legal_start hs) h
  | inspect => cases h; exact hs

end Proofs

end Sys2Proof
end

section
/-! PROOFS. The state: the invariant, the flags, the registers, the output history, memory and reset (spec/10_state.md), and the
instructions that show them: NOP and the jumps on two flags (spec/40_sequencer.md R93, spec/45_jumps.md). -/

namespace Sys2Proof

namespace Proofs

open Machine Laws

/-! ## The invariant (R26, R27, R31, R32, R181) -/

/-- Settles O14: a step keeps a legal state legal, however it ends (`step_legal`). -/
theorem stepKeepsInvariant : Obligations.StepKeepsInvariant := fun _ _ => step_legal

/-- Settles O13: the reset values are a legal state. -/
theorem invariantHoldsAtReset : Obligations.InvariantHoldsAtReset := legal_reset

/-- Settles O16: a step without effect and a fault keep the pc, and a fetched instruction that completes leaves one of at
most 256 (`executes_advance_pc_le`). -/
theorem pointerNeverPasses256 : Obligations.PointerNeverPasses256 := by
  intro s t hs h
  rcases step_next h with ⟨-, rfl⟩ | ⟨-, c, -, rfl⟩ | ⟨-, i, hf, hx⟩
  · exact hs
  · exact hs
  · rcases exec_next hx with ⟨c, -, rfl⟩ | ⟨u, hu, rfl⟩
    · exact hs
    · exact executes_advance_pc_le hf hu

/-! ## The registers an instruction writes (R21 .. R23) -/

/-- The register an instruction names as its destination, and SP where the instruction moves it. -/
def MayWrite (i : Instr) (j : RegIdx) : Prop :=
  (∃ a, destOperand i = some a ∧ a.toNat = j.val) ∨ (movesSp i = true ∧ j = RegIdx.sp)

/-- An execute step keeps every register it may not write. -/
theorem executes_readReg {i : Instr} {s u : State} {j : RegIdx} (h : Executes i s u) (hj : ¬ MayWrite i j) :
    u.readReg j = s.readReg j := by
  have hsp : movesSp i = true → j ≠ RegIdx.sp := fun hm e => hj (.inr ⟨hm, e⟩)
  have hdest : ∀ (a : Word) (r : RegIdx), destOperand i = some a → a.toNat = r.val → j ≠ r :=
    fun a r hd ha e => hj (.inl ⟨a, hd, e ▸ ha⟩)
  cases i <;> simp only [Executes] at h
  case nop | hlt => subst h; rfl
  case ret => subst h; exact decSp_readReg _ (hsp rfl)
  case push | call => obtain ⟨ra, -, rfl⟩ := h; exact incSp_readReg s (hsp rfl)
  case pop =>
    obtain ⟨ra, ha, rfl⟩ := h
    rw [decSp_readReg _ (hsp rfl), readReg_writeReg_ne _ _ (hdest _ ra rfl ha)]
  case prn | pra | jmp => obtain ⟨ra, -, rfl⟩ := h; rfl
  case jeq | jne | jgt | jlt | jle | jge => obtain ⟨ra, -, rfl | rfl⟩ := h <;> rfl
  case cmp => obtain ⟨ra, rb, -, -, rfl⟩ := h; rfl
  case ldi => obtain ⟨ra, ha, rfl⟩ := h; exact readReg_writeReg_ne _ _ (hdest _ ra rfl ha)
  case inc | dec | not => obtain ⟨ra, v, ha, rfl⟩ := h; exact readReg_writeReg_ne _ _ (hdest _ ra rfl ha)
  all_goals obtain ⟨ra, rb, v, ha, -, rfl⟩ := h; exact readReg_writeReg_ne _ _ (hdest _ ra rfl ha)

/-- Settles O18: a fault and the advance keep every register, and the execute step those it may not write. -/
theorem registersChangeOnlyWhereNamed : Obligations.RegistersChangeOnlyWhereNamed := by
  intro i s t j h hne
  refine Classical.byContradiction fun hj => ?_
  rcases exec_next h with ⟨c, -, rfl⟩ | ⟨u, hu, rfl⟩
  · exact hne rfl
  · exact hne ((advance_readReg u _ j).trans (executes_readReg hu hj))

/-! ## The output history (R33, R120) -/

/-- Only PRN and PRA send an event. -/
theorem executes_out {i : Instr} {s u : State} (h : Executes i s u) :
    (∃ a, i = .prn a ∨ i = .pra a) ∨ u.out = s.out := by
  cases i <;> simp only [Executes] at h
  case prn => exact .inl ⟨_, .inl rfl⟩
  case pra => exact .inl ⟨_, .inr rfl⟩
  all_goals right
  case nop | ret | hlt => subst h; rfl
  case jeq | jne | jgt | jlt | jle | jge => obtain ⟨ra, -, rfl | rfl⟩ := h <;> rfl
  case push | pop | call | jmp | ldi => obtain ⟨ra, -, rfl⟩ := h; rfl
  case inc | dec | not => obtain ⟨ra, v, -, rfl⟩ := h; rfl
  case cmp => obtain ⟨ra, rb, -, -, rfl⟩ := h; rfl
  all_goals obtain ⟨ra, rb, v, -, -, rfl⟩ := h; rfl

theorem sentEvent_none {i : Instr} (s : State) (h : ¬ ∃ a, i = .prn a ∨ i = .pra a) : sentEvent i s = none := by
  cases i
  case prn a => exact absurd ⟨a, .inl rfl⟩ h
  case pra a => exact absurd ⟨a, .inr rfl⟩ h
  all_goals rfl

/-- An instruction other than PRN and PRA keeps the history, whatever it ends in. -/
theorem exec_out {i : Instr} {s t : State} (h : exec i s = .next t) (hi : ¬ ∃ a, i = .prn a ∨ i = .pra a) :
    t.out = s.out := by
  rcases exec_next h with ⟨c, -, rfl⟩ | ⟨u, hu, rfl⟩
  · rfl
  · rw [advance_out]
    exact (executes_out hu).resolve_left hi

/-- The meaning of PRN and of PRA: the value of the named register is sent, and an operand that names none sends nothing. -/
theorem print_out {kind : OutKind} {op a : Word} {s t : State}
    (h : withReg a s (fun ra => complete op (s.emit kind (s.readReg ra))) = .next t) :
    t.out = s.out ++ (if ha : a.toNat < 8 then some (OutEvent.mk kind (s.readReg ⟨a.toNat, ha⟩)) else none).toList := by
  by_cases ha : a.toNat < 8
  · rw [withReg_of_eq (r := ⟨a.toNat, ha⟩) rfl] at h
    cases h
    simp [ha]
  · rw [withReg_of_ge (by omega)] at h
    cases h
    simp [ha]

/-- Settles O21: PRN and PRA send the event of the register they name (`print_out`), and nothing else is sent. -/
theorem outputGrowsByOneEvent : Obligations.OutputGrowsByOneEvent := by
  intro i s t h
  by_cases hi : ∃ a, i = .prn a ∨ i = .pra a
  · obtain ⟨a, rfl | rfl⟩ := hi
    · exact print_out h
    · exact print_out h
  · rw [sentEvent_none s hi, exec_out h hi, Option.toList_none, List.append_nil]

/-! ## Memory (R31, R42) -/

/-- A stored word is read back, and every other address, inside the address space or not, answers what it did. -/
theorem memRead_writeWord (s : State) (addr other : Nat) (v : Word) :
    (s.writeWord addr v).memRead other = if other = addr ∧ addr < 256 then .ok v else s.memRead other := by
  by_cases ho : other < 256
  · rw [memRead_of_lt ho, memRead_of_lt ho, readWord_writeWord]
    by_cases h : other = addr
    · subst h; simp [ho]
    · simp [h]
  · rw [memRead_of_ge (by omega), memRead_of_ge (by omega), if_neg (by omega)]

/-- Settles O50: inside the address space by `memRead_writeWord` and `wf_write`; outside it both primitives fault. -/
theorem memoryReadAfterWrite : Obligations.MemoryReadAfterWrite := by
  intro s addr v
  constructor
  · intro h
    refine ⟨s.writeWord addr v, memWrite_of_lt v h, ?_, fun other ho => ?_, wf_write v h, rfl⟩
    · rw [memRead_writeWord, if_pos ⟨rfl, h⟩]
    · rw [memRead_writeWord, if_neg (fun hc => ho hc.1)]
  · intro h
    exact ⟨memRead_of_ge h, memWrite_of_ge v h⟩

/-! ## Reset (R35, R200) -/

/-- Settles O51: each field of the reset state has the value R35 states; the eight registers are compared one by one. -/
theorem resetValues : Obligations.ResetValues := by
  intro s
  exact ⟨State.reset, rfl, by decide, rfl, rfl, fun _ => rfl, rfl, rfl, rfl, rfl⟩

/-! ## Updates that an instruction does not see

A change of FL, or of a register the instruction does not name, commutes with everything the instruction does: it is the
same change of the state that the instruction leaves. -/

/-- The registers an instruction names, and SP. -/
def Touches (i : Instr) (r : RegIdx) : Prop := (∃ w ∈ i.regOperands, w.toNat = r.val) ∨ r = RegIdx.sp

/-- The instructions that read FL: the conditional jumps, and COMPARE for the bits it keeps. -/
def ReadsFlags (i : Instr) : Prop := isConditionalJump i = true ∨ ∃ a b, i = .cmp a b

/-- An update of the state that leaves alone what an instruction reads, and commutes with what it writes. -/
structure Unseen (i : Instr) (f : State → State) : Prop where
  readReg : ∀ s r, Touches i r → (f s).readReg r = s.readReg r
  readWord : ∀ s k, (f s).readWord k = s.readWord k
  pc : ∀ s, (f s).pc = s.pc
  runState : ∀ s, (f s).runState = s.runState
  fl : ReadsFlags i → ∀ s, (f s).fl = s.fl
  writeReg : ∀ s r v, Touches i r → (f s).writeReg r v = f (s.writeReg r v)
  writeWord : ∀ s k v, (f s).writeWord k v = f (s.writeWord k v)
  setPc : ∀ s n, (f s).setPc n = f (s.setPc n)
  setFl : ReadsFlags i → ∀ s v, (f s).setFl v = f (s.setFl v)
  emit : ∀ s kind v, (f s).emit kind v = f (s.emit kind v)
  stop : ∀ s reason info, (f s).stop reason info = f (s.stop reason info)

/-- FL is not seen by an instruction that does not read it (R28). -/
theorem unseen_setFl {i : Instr} (fl : Word) (hi : ¬ ReadsFlags i) : Unseen i (fun s => s.setFl fl) where
  readReg _ _ _ := rfl
  readWord _ _ := rfl
  pc _ := rfl
  runState _ := rfl
  fl h := absurd h hi
  writeReg _ _ _ _ := rfl
  writeWord _ _ _ := rfl
  setPc _ _ := rfl
  setFl h := absurd h hi
  emit _ _ _ := rfl
  stop _ _ _ := rfl

/-- A register that an instruction does not touch is not seen by it. -/
theorem unseen_writeReg {i : Instr} {j : RegIdx} (v : Word) (hj : ¬ Touches i j) : Unseen i (fun s => s.writeReg j v) where
  readReg s _ hr := readReg_writeReg_ne s v fun e => hj (e ▸ hr)
  readWord _ _ := rfl
  pc _ := rfl
  runState _ := rfl
  fl _ _ := rfl
  writeReg s _ w hr := writeReg_comm s v w fun e => hj (e ▸ hr)
  writeWord _ _ _ := rfl
  setPc _ _ := rfl
  setFl _ _ _ := rfl
  emit _ _ _ := rfl
  stop _ _ _ := rfl

/-- Where one run answers a next state, another answers the same state updated. -/
def Carries (f : State → State) (o o' : Host.Outcome State Fault Refusal) : Prop :=
  ∀ t, o = .next t → o' = .next (f t)

section Shapes

variable {i : Instr} {f : State → State} (hf : Unseen i f)

include hf

theorem unseen_sp (s : State) : (f s).sp = s.sp := hf.readReg s _ (.inr rfl)

theorem unseen_incSp (s : State) : (f s).incSp = f s.incSp := by
  rw [State.incSp, unseen_sp hf, hf.writeReg s _ _ (.inr rfl), State.incSp]

theorem unseen_decSp (s : State) : (f s).decSp = f s.decSp := by
  rw [State.decSp, unseen_sp hf, hf.writeReg s _ _ (.inr rfl), State.decSp]

theorem carries_fault (s : State) (c : Cause) : Carries f (.next (s.raiseFault c)) (.next ((f s).raiseFault c)) := by
  rintro _ ⟨⟩
  exact congrArg _ (hf.stop s _ _)

theorem carries_complete (op : Word) (s : State) : Carries f (complete op s) (complete op (f s)) := by
  rintro _ ⟨⟩
  rw [complete, State.advance, State.advance, hf.runState, hf.pc, hf.setPc]
  split <;> rfl

/-- A register operand is checked alike, so only the registers that are named matter. -/
theorem carries_withReg {a : Word} {s : State} {k k' : RegIdx → Host.Outcome State Fault Refusal}
    (hk : ∀ r : RegIdx, a.toNat = r.val → Carries f (k r) (k' r)) : Carries f (withReg a s k) (withReg a (f s) k') := by
  by_cases ha : a.toNat < 8
  · have he : a.toNat = (⟨a.toNat, ha⟩ : RegIdx).val := rfl
    rw [withReg_of_eq he, withReg_of_eq he]
    exact hk _ he
  · rw [withReg_of_ge (by omega), withReg_of_ge (by omega)]
    exact carries_fault hf s _

theorem carries_withRegs {a b : Word} {s : State} {k k' : RegIdx → RegIdx → Host.Outcome State Fault Refusal}
    (hk : ∀ ra rb : RegIdx, a.toNat = ra.val → b.toNat = rb.val → Carries f (k ra rb) (k' ra rb)) :
    Carries f (withRegs a b s k) (withRegs a b (f s) k') :=
  carries_withReg hf fun ra ha => carries_withReg hf fun rb hb => hk ra rb ha hb

/-- The last part of every instruction that writes a register: a result computed alike is written and the core advances. -/
theorem carries_writeReg (op : Word) {s : State} {r : RegIdx} {v v' : Word} (hr : Touches i r) (hv : v' = v) :
    Carries f (complete op (s.writeReg r v)) (complete op ((f s).writeReg r v')) := by
  rw [hv, hf.writeReg s r v hr]
  exact carries_complete hf op _

theorem carries_unary (op : Word) (g : Word → Word) {a : Word} (s : State) (ha : a ∈ i.regOperands) :
    Carries f (aluUnary op g a s) (aluUnary op g a (f s)) :=
  carries_withReg hf fun ra hra => by
    have hr : Touches i ra := .inl ⟨a, ha, hra⟩
    exact carries_writeReg hf op hr (by rw [hf.readReg s ra hr])

theorem carries_binary (op : Word) (g : Word → Word → Word) {a b : Word} (s : State) (ha : a ∈ i.regOperands)
    (hb : b ∈ i.regOperands) : Carries f (aluBinary op g a b s) (aluBinary op g a b (f s)) :=
  carries_withRegs hf fun ra rb hra hrb => by
    have hr : Touches i ra := .inl ⟨a, ha, hra⟩
    exact carries_writeReg hf op hr (by rw [hf.readReg s ra hr, hf.readReg s rb (.inl ⟨b, hb, hrb⟩)])

theorem carries_divide (op : Word) (g : Word → Word → Word) {a b : Word} (s : State) (ha : a ∈ i.regOperands)
    (hb : b ∈ i.regOperands) : Carries f (aluDivide op g a b s) (aluDivide op g a b (f s)) :=
  carries_withRegs hf fun ra rb hra hrb => by
    have hr : Touches i ra := .inl ⟨a, ha, hra⟩
    have hrd : (f s).readReg rb = s.readReg rb := hf.readReg s rb (.inl ⟨b, hb, hrb⟩)
    by_cases hz : s.readReg rb = 0
    · rw [checkDivisor_zero hz, checkDivisor_zero (hrd.trans hz)]
      exact carries_fault hf s _
    · rw [checkDivisor_ne hz, checkDivisor_ne (hrd ▸ hz)]
      exact carries_writeReg hf op hr (by rw [hf.readReg s ra hr, hrd])

/-- A jump whose condition comes out alike. -/
theorem carries_jump (op : Word) (cond : Word → Bool) {a : Word} (s : State) (ha : a ∈ i.regOperands)
    (hc : cond (f s).fl = cond s.fl) : Carries f (jump op cond a s) (jump op cond a (f s)) :=
  carries_withReg hf fun ra hra => by
    rw [hc, hf.readReg s ra (.inl ⟨a, ha, hra⟩), hf.pc, hf.setPc, hf.setPc, ← apply_ite f]
    exact carries_complete hf op _

theorem carries_print (op : Word) (kind : OutKind) {a : Word} (s : State) (ha : a ∈ i.regOperands) :
    Carries f (withReg a s fun ra => complete op (s.emit kind (s.readReg ra)))
      (withReg a (f s) fun ra => complete op ((f s).emit kind ((f s).readReg ra))) :=
  carries_withReg hf fun ra hra => by
    rw [hf.readReg s ra (.inl ⟨a, ha, hra⟩), hf.emit]
    exact carries_complete hf op _

end Shapes

section Stack

variable {a : Word} {f : State → State} (s : State)

theorem carries_push (hf : Unseen (.push a) f) : Carries f (execPush a s) (execPush a (f s)) :=
  carries_withReg hf fun ra hra => by
    have hr : Touches (.push a) ra := .inl ⟨a, List.mem_singleton_self a, hra⟩
    simp only [unseen_incSp hf, unseen_sp hf, hf.readReg _ ra hr, memWrite_word, orFault_ok, hf.writeWord]
    exact carries_complete hf _ _

theorem carries_pop (hf : Unseen (.pop a) f) : Carries f (execPop a s) (execPop a (f s)) :=
  carries_withReg hf fun ra hra => by
    have hr : Touches (.pop a) ra := .inl ⟨a, List.mem_singleton_self a, hra⟩
    simp only [unseen_sp hf, memRead_word, orFault_ok, hf.readWord, hf.writeReg _ ra _ hr, unseen_decSp hf]
    exact carries_complete hf _ _

theorem carries_call (hf : Unseen (.call a) f) : Carries f (execCall a s) (execCall a (f s)) :=
  carries_withReg hf fun ra hra => by
    have hr : Touches (.call a) ra := .inl ⟨a, List.mem_singleton_self a, hra⟩
    simp only [unseen_incSp hf, unseen_sp hf, hf.pc, memWrite_word, orFault_ok, hf.writeWord, hf.readReg _ ra hr, hf.setPc]
    exact carries_complete hf _ _

theorem carries_ret (hf : Unseen .ret f) : Carries f (execRet s) (execRet (f s)) := by
  simp only [execRet, unseen_sp hf, memRead_word, orFault_ok, hf.readWord, hf.setPc, unseen_decSp hf]
  exact carries_complete hf _ _

end Stack

theorem carries_cmp {a b : Word} {f : State → State} (s : State) (hf : Unseen (.cmp a b) f) :
    Carries f (execCmp a b s) (execCmp a b (f s)) :=
  carries_withRegs hf fun ra rb hra hrb => by
    have hfl : ReadsFlags (.cmp a b) := .inr ⟨a, b, rfl⟩
    rw [hf.readReg s ra (.inl ⟨a, List.mem_cons_self, hra⟩),
      hf.readReg s rb (.inl ⟨b, List.mem_cons_of_mem _ (List.mem_singleton_self b), hrb⟩), hf.fl hfl, hf.setFl hfl]
    exact carries_complete hf _ _

/-- An instruction does the same whatever it does not see holds, and keeps it. -/
theorem carries_exec {i : Instr} {f : State → State} (hf : Unseen i f) (s : State) :
    Carries f (exec i s) (exec i (f s)) := by
  cases i with
  | nop => exact carries_complete hf _ s
  | hlt =>
    have hstop := carries_complete hf Opcode.hlt (s.stop .halt none)
    rwa [← hf.stop] at hstop
  | iret | int | ld | st => exact carries_fault hf s _
  | ret => exact carries_ret s hf
  | push a => exact carries_push s hf
  | pop a => exact carries_pop s hf
  | call a => exact carries_call s hf
  | prn a | pra a => exact carries_print hf _ _ s (List.mem_singleton_self a)
  | jmp a => exact carries_jump hf _ (fun _ => true) s (List.mem_singleton_self a) rfl
  | jeq a | jne a | jgt a | jlt a | jle a | jge a =>
    exact carries_jump hf _ _ s (List.mem_singleton_self a) (congrArg _ (hf.fl (.inl rfl) s))
  | inc a | dec a | not a => exact carries_unary hf _ _ s (List.mem_singleton_self a)
  | ldi a imm =>
    exact carries_withReg hf fun ra hra => carries_writeReg hf _ (.inl ⟨a, List.mem_singleton_self a, hra⟩) rfl
  | cmp a b => exact carries_cmp s hf
  | add a b | sub a b | mul a b | and a b | or a b | xor a b | shl a b | shr a b =>
    exact carries_binary hf _ _ s List.mem_cons_self (List.mem_cons_of_mem _ (List.mem_singleton_self b))
  | div a b | mod a b =>
    exact carries_divide hf _ _ s List.mem_cons_self (List.mem_cons_of_mem _ (List.mem_singleton_self b))

/-- Settles O19: IS and IM are not SP, so an instruction that does not name one of them does not see it. -/
theorem interruptRegistersCarryNoFunction : Obligations.InterruptRegistersCarryNoFunction := by
  intro i s t j v hj hnamed h
  have hunseen : ¬ Touches i j := by
    rintro (⟨w, hw, hwj⟩ | rfl)
    · exact hnamed w hw hwj
    · revert hj
      decide
  exact carries_exec (unseen_writeReg v hunseen) s t h

/-! ## The flags (R27 .. R30, R141) -/

theorem eqMask_eq : Flags.eqMask = BitVec.twoPow 8 0 := by decide

theorem gtMask_eq : Flags.gtMask = BitVec.twoPow 8 1 := by decide

theorem ltMask_eq : Flags.ltMask = BitVec.twoPow 8 2 := by decide

/-- The test of a mask of one bit is that bit (R30). -/
theorem test_twoPow (fl : Word) {k : Nat} (hk : k < 8) : Flags.test fl (BitVec.twoPow 8 k) = fl.getLsbD k := by
  have hne : (0 : Word) ≠ BitVec.twoPow 8 k := fun e => by
    have hbit := congrArg (fun w : Word => w.getLsbD k) e
    simp [hk] at hbit
  rw [Flags.test, isMaskedBy_eq, BitVec.and_twoPow]
  cases fl.getLsbD k
  · simpa using hne
  · simp

/-! The single-flag queries of R29 are the flags' bits of R27. -/

theorem flagsEq_eq_getLsbD (fl : Word) : Flags.eq fl = fl.getLsbD 0 := by
  rw [Flags.eq, eqMask_eq, test_twoPow fl (by decide)]

theorem flagsGt_eq_getLsbD (fl : Word) : Flags.gt fl = fl.getLsbD 1 := by
  rw [Flags.gt, gtMask_eq, test_twoPow fl (by decide)]

theorem flagsLt_eq_getLsbD (fl : Word) : Flags.lt fl = fl.getLsbD 2 := by
  rw [Flags.lt, ltMask_eq, test_twoPow fl (by decide)]

/-- Settles O49: a single-flag mask is one bit, which set and clear write and test reads. -/
theorem flagPrimitives : Obligations.FlagPrimitives := by
  intro fl m hm
  have hone : ∃ k, k < 8 ∧ m = BitVec.twoPow 8 k := by
    rcases hm with rfl | rfl | rfl
    · exact ⟨0, by decide, by decide⟩
    · exact ⟨1, by decide, by decide⟩
    · exact ⟨2, by decide, by decide⟩
  obtain ⟨k, hk, hmk⟩ := hone
  have hset : Flags.set fl m = fl ||| m := orMask_eq fl m
  have hclear : Flags.clear fl m = fl &&& ~~~m := clearMask_eq fl m
  refine ⟨hset, ?_, isMaskedBy_iff fl m, ?_, ?_⟩
  · rw [hclear]
    exact (BitVec.and_allOnes (x := fl &&& ~~~m)).symm
  · rw [hset, hmk, test_twoPow _ hk]
    simp [hk]
  · rw [hclear, hmk, test_twoPow _ hk]
    simp [hk]

/-- `toggle_masked` writes its boolean to the bits of the mask and keeps the others. -/
theorem toggleMasked_getLsbD (on : Bool) (fl m : Word) (k : Nat) :
    (toggleMasked on fl m).getLsbD k = if m.getLsbD k then on else fl.getLsbD k := by
  by_cases hk : k < 8
  · rw [toggleMasked_eq]
    cases on with
    | true =>
      rw [if_pos rfl, BitVec.getLsbD_or]
      cases m.getLsbD k <;> simp
    | false =>
      rw [if_neg Bool.false_ne_true, BitVec.getLsbD_and, BitVec.getLsbD_not, decide_eq_true hk]
      cases m.getLsbD k <;> simp
  · simp only [BitVec.getLsbD_of_ge _ k (Nat.not_lt.mp hk), Bool.false_eq_true, if_false]

/-- COMPARE sets or clears each flag by its boolean and keeps every other bit (R141). -/
theorem compare_getLsbD (a b fl : Word) (k : Nat) :
    (Flags.compare a b fl).getLsbD k =
      if 1 = k then decide (b.toNat < a.toNat) else if 0 = k then decide (a.toNat = b.toNat)
      else if 2 = k then decide (a.toNat < b.toNat) else fl.getLsbD k := by
  simp only [Flags.compare, toggleMasked_getLsbD, eqMask_eq, gtMask_eq, ltMask_eq, BitVec.getLsbD_twoPow, Nat.reduceLT,
    decide_true, Bool.true_and, decide_eq_true_eq]

/-- The advance does not look at FL. -/
theorem setFl_advance (s : State) (fl op : Word) : (s.setFl fl).advance op = (s.advance op).setFl fl := by
  rw [State.advance, State.advance, setFl_runState, setFl_pc]
  split <;> rfl

/-- Two operand words name two registers, or every instruction that checks them stops, in any state, by one cause. -/
theorem withRegs_named_or_fault (a b : Word) :
    (∃ ra rb : RegIdx, a.toNat = ra.val ∧ b.toNat = rb.val) ∨
    ∃ c, ∀ s k, withRegs a b s k = .next (s.raiseFault c) := by
  by_cases ha : a.toNat < 8
  · by_cases hb : b.toNat < 8
    · exact .inl ⟨⟨_, ha⟩, ⟨_, hb⟩, rfl, rfl⟩
    · exact .inr ⟨_, fun s k => (withReg_of_eq (r := ⟨_, ha⟩) rfl s _).trans (withReg_of_ge (Nat.not_lt.mp hb) s _)⟩
  · exact .inr ⟨_, fun s k => withReg_of_ge (Nat.not_lt.mp ha) s _⟩

/-- COMPARE does the same whatever FL holds, up to FL itself. -/
theorem execCmp_setFl {a b : Word} {s t : State} (fl : Word) (h : exec (.cmp a b) s = .next t) :
    ∃ u, exec (.cmp a b) (s.setFl fl) = .next u ∧ u.setFl 0 = t.setFl 0 := by
  rcases withRegs_named_or_fault a b with ⟨ra, rb, ha, hb⟩ | ⟨c, hc⟩
  · rw [execCmp_of_eq s ha hb] at h
    cases h
    refine ⟨_, execCmp_of_eq _ ha hb, ?_⟩
    rw [setFl_advance, setFl_advance, setFl_advance]
    rfl
  · cases (hc s _).symm.trans h
    exact ⟨_, hc _ _, rfl⟩

/-- An instruction that is no conditional jump does the same whatever FL holds, up to FL itself (R28). -/
theorem exec_setFl {i : Instr} {s t : State} (fl : Word) (hi : isConditionalJump i = false) (h : exec i s = .next t) :
    ∃ u, exec i (s.setFl fl) = .next u ∧ u.setFl 0 = t.setFl 0 := by
  by_cases hcmp : ∃ a b, i = .cmp a b
  · obtain ⟨a, b, rfl⟩ := hcmp
    exact execCmp_setFl fl h
  · have hunread : ¬ ReadsFlags i := by
      rintro (hj | hc)
      · rw [hi] at hj
        cases hj
      · exact hcmp hc
    exact ⟨t.setFl fl, carries_exec (unseen_setFl fl hunread) s t h, rfl⟩

theorem exec_fl {i : Instr} {s t : State} (h : exec i s = .next t) (hi : ∀ a b, i ≠ .cmp a b) : t.fl = s.fl := by
  rcases exec_next h with ⟨c, -, rfl⟩ | ⟨u, hu, rfl⟩
  · rfl
  · rw [advance_fl]
    exact (executes_flags hu).resolve_left fun ⟨a, b, e⟩ => hi a b e

/-- Settles O17: COMPARE writes each flag by its boolean (`compare_getLsbD`), nothing else writes FL, and without the
conditional jumps nothing that FL holds shows (`exec_setFl`). -/
theorem flagsWrittenByCompareReadByJumps : Obligations.FlagsWrittenByCompareReadByJumps := by
  refine ⟨fun i s t => exec_fl, fun a b ra rb s t ha hb h => ?_, fun i s t fl => exec_setFl fl, fun s c => rfl⟩
  rw [execCmp_of_eq s ha hb] at h
  cases h
  simp only [advance_fl, setFl_fl, compare_getLsbD]
  refine ⟨by simp, by simp, by simp, fun k hk => ?_⟩
  rw [if_neg (by omega), if_neg (by omega), if_neg (by omega)]

/-! ## The jumps (R160) -/

/-- The rule of a jump, from its encoding and from the condition its meaning tests. -/
theorem jumpRule_of {mk : Word → Instr} {op : Word} {cond : Word → Bool} {taken : Word → Prop}
    (hexec : ∀ a s, exec (mk a) s = jump op cond a s) (henc : ∀ a, encode (mk a) = [op, a])
    (hp : Opcode.setsPointer op = true) (hh : hasHandler (mk 0) = true) (hc : ∀ fl, cond fl = true ↔ taken fl) :
    JumpRule mk op taken := by
  have hframe (s : State) (n : Nat) : Frame [] s (s.setPc n) := ⟨fun _ _ => rfl, rfl, fun _ => rfl, rfl, rfl, rfl, rfl⟩
  obtain ⟨hop, hargs⟩ := List.cons.inj (henc 0)
  refine ⟨henc, fun a ra s ha _ => ?_, fun a s ha => ?_, operandReadFaults_of hh hop (congrArg List.length hargs)⟩
  · refine ⟨_, (hexec a s).trans (jump_of_eq s op cond ha hp), fun h => ?_, fun h => ?_, hframe s _⟩
    · rw [setPc_pc, if_pos ((hc _).mpr h)]
    · rw [setPc_pc, if_neg (fun hcond => h ((hc _).mp hcond))]
  · exact (hexec a s).trans (withReg_of_ge ha s _)

/-- Settles O48: each of the three conditions is the or of two flags (R29, decision D14). -/
theorem jumpsOnEitherOfTwoFlags : Obligations.JumpsOnEitherOfTwoFlags := by
  refine ⟨jumpRule_of (cond := Flags.neq) (fun _ _ => rfl) (fun _ => rfl) jne_fields.2.2 rfl fun fl => ?_,
    jumpRule_of (cond := Flags.ngt) (fun _ _ => rfl) (fun _ => rfl) jle_fields.2.2 rfl fun fl => ?_,
    jumpRule_of (cond := Flags.nlt) (fun _ _ => rfl) (fun _ => rfl) jge_fields.2.2 rfl fun fl => ?_⟩
  · rw [Flags.neq, Bool.or_eq_true, flagsLt_eq_getLsbD, flagsGt_eq_getLsbD]
  · rw [Flags.ngt, Bool.or_eq_true, flagsLt_eq_getLsbD, flagsEq_eq_getLsbD]
  · rw [Flags.nlt, Bool.or_eq_true, flagsEq_eq_getLsbD, flagsGt_eq_getLsbD]

/-! ## NOP (R93) -/

theorem execNop_of_running {s : State} (h : s.runState = .running) : exec .nop s = .next (s.setPc (s.pc + 1)) :=
  congrArg _ (advance_running h nop_fields.2.2)

/-- A running core at the end of the address space stops with MEMORY_OUT_OF_RANGE. -/
theorem step_outside {s : State} (h : s.runState = .running) (hpc : 256 ≤ s.pc) :
    step s = .next (s.raiseFault (outOfRange s.pc)) := by
  rw [step_running h, runCycle_of_fault (fetch_outside hpc)]

/-- Settles O24: NOP is the advance by 1 (`execNop_of_running`), at 255 to the address past the end, where the next step
faults (`step_outside`). -/
theorem nopOnlyAdvances : Obligations.NopOnlyAdvances := by
  refine ⟨rfl, fun s hs => execNop_of_running hs, fun _ _ => rfl, fun s hs hpc hw => ?_⟩
  have hfetch : fetchInstr s = .ok .nop := by
    simp only [fetchInstr, maxWords, hpc, wordsFrom_succ (s := s) (addr := 255) (by decide), hw]
    rfl
  have hstep : step s = .next (s.setPc 256) := by
    rw [step_running hs, runCycle_of_fetch hfetch, execNop_of_running hs, hpc]
  exact ⟨_, hstep, rfl, step_outside hs (Nat.le_refl 256)⟩

end Proofs

end Sys2Proof
end

section
/-! PROOFS. Memory and the stack: the one word an instruction stores to (spec/20_memory.md R41, R47), PUSH and POP
(spec/41_data_and_stack.md R101, R102), CALL and RETURN_FROM_CALL (spec/42_subroutine.md R110, R111). -/

namespace Sys2Proof

namespace Proofs

open Machine Laws

/-! ## The word an instruction stores to (R41) -/

theorem readWord_writeWord_same (s : State) (addr : Nat) (v : Word) : (s.writeWord addr v).readWord addr = v := by
  rw [readWord_writeWord, if_pos rfl]

theorem readWord_writeWord_ne (s : State) {addr k : Nat} (v : Word) (h : k ≠ addr) :
    (s.writeWord addr v).readWord k = s.readWord k := by
  rw [readWord_writeWord, if_neg h]

/-- An execute step keeps every word it does not store to: only PUSH and CALL write memory. -/
theorem executes_readWord {i : Instr} {s u : State} {k : Nat} (h : Executes i s u) (hk : storeAddress i s ≠ some k) :
    u.readWord k = s.readWord k := by
  cases i <;> simp only [Executes] at h
  case push | call =>
    obtain ⟨ra, -, rfl⟩ := h
    exact readWord_writeWord_ne s.incSp _ fun e => hk (congrArg some e.symm)
  case nop | hlt | ret => subst h; rfl
  case jeq | jne | jgt | jlt | jle | jge => obtain ⟨ra, -, rfl | rfl⟩ := h <;> rfl
  case pop | prn | pra | jmp | ldi => obtain ⟨ra, -, rfl⟩ := h; rfl
  case inc | dec | not => obtain ⟨ra, v, -, rfl⟩ := h; rfl
  case cmp => obtain ⟨ra, rb, -, -, rfl⟩ := h; rfl
  all_goals obtain ⟨ra, rb, v, -, -, rfl⟩ := h; rfl

/-- An instruction keeps every word it does not store to, whatever it ends in. -/
theorem exec_readWord {i : Instr} {s t : State} {k : Nat} (h : exec i s = .next t) (hk : storeAddress i s ≠ some k) :
    t.readWord k = s.readWord k := by
  rcases exec_next h with ⟨c, -, rfl⟩ | ⟨u, hu, rfl⟩
  · rfl
  · rw [advance_readWord]
    exact executes_readWord hu hk

/-- Settles O20: a word that is not the one stored to is kept (`exec_readWord`). -/
theorem memoryChangesOnlyAtTheStack : Obligations.MemoryChangesOnlyAtTheStack := by
  intro i s t h
  refine ⟨fun hnone k => exec_readWord h ?_, fun addr hsome k hk => exec_readWord h ?_⟩
  · rw [hnone]
    exact (Option.some_ne_none k).symm
  · rw [hsome]
    exact fun e => hk (Option.some.inj e).symm

/-! ## PUSH and POP (R101, R102) -/

/-- After the increment SP reads as its new value, and every other register as before (decision D16). -/
theorem incSp_readReg_eq (s : State) (r : RegIdx) :
    s.incSp.readReg r = if r = RegIdx.sp then s.incSp.sp else s.readReg r := by
  split
  · next h => rw [h, State.sp]
  · next h => exact incSp_readReg s h

/-- SP after a write to a register is the value written, if the register is SP. -/
theorem writeReg_sp_eq (s : State) (r : RegIdx) (v : Word) :
    (s.writeReg r v).sp = if r = RegIdx.sp then v else s.sp := by
  by_cases h : r = RegIdx.sp
  · rw [if_pos h, h, State.sp, readReg_writeReg_same]
  · rw [if_neg h, State.sp, readReg_writeReg_ne s v (Ne.symm h), State.sp]

theorem execPush_of_running {a : Word} {ra : RegIdx} {s : State} (ha : a.toNat = ra.val) (hs : s.runState = .running) :
    exec (.push a) s =
      .next ((s.incSp.writeWord s.incSp.sp.toNat (s.incSp.readReg ra)).setPc (s.pc + 2)) :=
  (execPush_of_eq s ha).trans (congrArg _ (advance_running hs push_fields.2.2))

theorem execPop_of_running {a : Word} {ra : RegIdx} {s : State} (ha : a.toNat = ra.val) (hs : s.runState = .running) :
    exec (.pop a) s = .next ((s.writeReg ra (s.readWord s.sp.toNat)).decSp.setPc (s.pc + 2)) :=
  (execPop_of_eq s ha).trans (congrArg _ (advance_running hs pop_fields.2.2))

/-- Settles O27: the word at the new SP is the one just stored, and what PUSH keeps is O20's frame and the increment's. -/
theorem pushStoresAboveStackPointer : Obligations.PushStoresAboveStackPointer := by
  refine ⟨fun _ => rfl, fun a ra s ha hs => ?_, fun a s ha => withReg_of_ge ha s _,
    operandReadFaults_of (i := .push 0) rfl rfl rfl⟩
  have hexec := execPush_of_running ha hs
  refine ⟨_, hexec, incSp_sp s, ?_, (memoryChangesOnlyAtTheStack _ s _ hexec).2 _ rfl, fun j hj => ?_,
    rfl, rfl, rfl, rfl, rfl, rfl⟩
  · exact (readWord_writeWord_same s.incSp _ _).trans (incSp_readReg_eq s ra)
  · exact incSp_readReg s (List.ne_of_not_mem_cons hj)

/-- Settles O28: the decrement is of SP as the write to x[a] left it, so of the popped word for a = 7 (decision D16). -/
theorem popReadsAtStackPointer : Obligations.PopReadsAtStackPointer := by
  refine ⟨fun _ => rfl, fun a ra s ha hs => ?_, fun a s ha => withReg_of_ge ha s _,
    operandReadFaults_of (i := .pop 0) rfl rfl rfl⟩
  have hsp := decSp_sp (s.writeReg ra (s.readWord s.sp.toNat))
  refine ⟨_, execPop_of_running ha hs, fun hne => ⟨?_, ?_⟩, fun he => ?_, rfl,
    fun j hj => ?_, rfl, fun _ => rfl, rfl, rfl, rfl, rfl⟩
  · exact (decSp_readReg _ hne).trans (readReg_writeReg_same s ra _)
  · rwa [writeReg_sp_eq, if_neg hne] at hsp
  · rwa [writeReg_sp_eq, if_pos he] at hsp
  · have hjsp : j ≠ RegIdx.sp := List.ne_of_not_mem_cons (List.not_mem_of_not_mem_cons hj)
    exact (decSp_readReg _ hjsp).trans (readReg_writeReg_ne s _ (List.ne_of_not_mem_cons hj))

/-! ## CALL and RETURN_FROM_CALL (R110, R111) -/

/-- Settles O30: the word at the new SP is the masked return address, and the target is read after the increment. -/
theorem callStoresReturnAddress : Obligations.CallStoresReturnAddress := by
  refine ⟨fun _ => rfl, fun a ra s ha _ => ?_, fun a s ha => withReg_of_ge ha s _,
    operandReadFaults_of (i := .call 0) rfl rfl rfl⟩
  have hexec := execCall_of_eq s ha
  refine ⟨_, hexec, incSp_sp s, ?_, ?_, (memoryChangesOnlyAtTheStack _ s _ hexec).2 _ rfl, fun j hj => ?_,
    rfl, rfl, rfl, rfl, rfl⟩
  · exact (congrArg BitVec.toNat (readWord_writeWord_same s.incSp _ _)).trans (wm_natCast_toNat (s.pc + 2))
  · rw [setPc_pc, incSp_readReg_eq, apply_ite BitVec.toNat]
    rfl
  · exact incSp_readReg s (List.ne_of_not_mem_cons hj)

/-- Settles O31: RET is the read at SP and the decrement (`execRet_eq`), at reset of 0 and of 0xF4. -/
theorem returnTakesPointerFromStack : Obligations.ReturnTakesPointerFromStack := by
  refine ⟨rfl, fun s _ => ?_, ⟨_, execRet_eq _, rfl, by decide⟩⟩
  refine ⟨_, execRet_eq s, rfl, decSp_sp _, fun j hj => ?_, rfl, fun _ => rfl, rfl, rfl, rfl, rfl⟩
  exact decSp_readReg _ (List.ne_of_not_mem_cons hj)

end Proofs

end Sys2Proof
end

section
/-! PROOFS. The encoding (spec/30_encoding.md): the fields of an opcode (R61 .. R63), decoding and encoding (R60, R64 .. R67, R71). -/

namespace Sys2Proof

namespace Proofs

open Machine Laws

/-! ## Decoding and encoding (R60, R64, R65, R67) -/

/-- The instructions a format makes have as their operands the words the format reads. -/
def KeepsOperands : Format → Prop
  | .unbound i | .f0 i => i.operands = []
  | .f1r mk => ∀ a, (mk a).operands = [a]
  | .f2rr mk | .f2ri mk => ∀ a b, (mk a b).operands = [a, b]

theorem keepsOperands_of_mem : ∀ r ∈ operationTable, KeepsOperands r.format := by
  simp [operationTable, KeepsOperands, Instr.operands]

/-- The words a format takes are the operands of the instruction it makes, followed by the words it leaves over. -/
theorem words_of_assemble {f : Format} (hf : KeepsOperands f) {ws rest : List Word} {i : Instr}
    (h : f.assemble ws = .ok (i, rest)) : ws = i.operands ++ rest := by
  cases f with
  | unbound | f0 =>
    cases h
    exact (congrArg (· ++ _) hf).symm
  | f1r =>
    rcases ws with _ | ⟨a, ws⟩ <;> cases h
    exact (congrArg (· ++ _) (hf a)).symm
  | f2rr | f2ri =>
    rcases ws with _ | ⟨a, _ | ⟨b, ws⟩⟩ <;> cases h
    exact (congrArg (· ++ _) (hf a b)).symm

/-- Words that decode are the words of the instruction, followed by those left over. -/
theorem words_of_decode {ws rest : List Word} {i : Instr} (h : decode ws = .ok (i, rest)) : ws = encode i ++ rest := by
  cases ws with
  | nil => cases h
  | cons op ws =>
    cases hl : lookup op with
    | none => cases (decode_unlisted hl ws).symm.trans h
    | some r =>
      rw [decode_listed hl] at h
      obtain ⟨hr, hop⟩ := lookup_some hl
      have hcode : i.opcode = op := (assemble_opcode hr h).trans hop
      rw [encode, List.cons_append, hcode, ← words_of_assemble (keepsOperands_of_mem r hr) h]

/-- The row of an instruction's opcode makes that instruction of its operands, one instruction at a time. -/
theorem decode_encode (i : Instr) (rest : List Word) : decode (encode i ++ rest) = .ok (i, rest) := by
  cases i <;> rfl

/-- Settles O4: what decodes is an encoding by the row's format (`words_of_decode`), and every encoding decodes
(`decode_encode`). -/
theorem decodeAndEncodeAgree : Obligations.DecodeAndEncodeAgree := by
  intro ws i rest
  constructor
  · exact words_of_decode
  · rintro rfl
    exact decode_encode i rest

/-- Settles O3: the twelve that decode are encodings of their instructions (`decode_encode`); the last two lack a word of
ADD and a row of the table. -/
theorem decodeSampleWords : Obligations.DecodeSampleWords :=
  ⟨decode_encode .nop _, decode_encode .hlt _, decode_encode .ret _, decode_encode .st _, decode_encode (.push 3) _,
    decode_encode (.prn 0) _, decode_encode (.call 6) _, decode_encode (.jge 2) _, decode_encode (.not 5) _,
    decode_encode (.ldi 0 8) _, decode_encode (.cmp 1 2) _, decode_encode (.shr 4 9) _, rfl, decode_unlisted rfl _⟩

/-! ## The fields of an opcode (R61 .. R63) -/

/-- A field of a word is the floor quotient by its place, modulo its size. -/
theorem unblock_toNat {width : Nat} (hw : width ≤ 8) (shift : Nat) (w : Word) :
    (unblock width shift w).toNat = w.toNat / 2 ^ shift % 2 ^ width := by
  have hfield : Bits.unblock width shift w.toNat = ((w.toNat / 2 ^ shift % 2 ^ width : Nat) : Int) := by
    rw [bits_unblock_eq]
    norm_cast
  have hlt : w.toNat / 2 ^ shift % 2 ^ width < 256 :=
    Nat.lt_of_lt_of_le (Nat.mod_lt _ (Nat.two_pow_pos width)) (Nat.pow_le_pow_right (by decide) hw)
  rw [unblock, hfield, wm_natCast_toNat, Nat.mod_eq_of_lt hlt]

theorem args_eq_div (op : Word) : Opcode.args op = op.toNat / 64 := by
  have hlt := op.isLt
  rw [Opcode.args, unblock_toNat (by decide)]
  omega

theorem identifier_toNat (op : Word) : (Opcode.identifier op).toNat = op.toNat % 16 := by
  rw [Opcode.identifier, unblock_toNat (by decide)]
  omega

theorem usesAlu_eq_getLsbD (op : Word) : Opcode.usesAlu op = op.getLsbD 5 :=
  test_twoPow op (k := 5) (by decide)

theorem setsPointer_eq_getLsbD (op : Word) : Opcode.setsPointer op = op.getLsbD 4 :=
  test_twoPow op (k := 4) (by decide)

theorem getLsbD_toNat (w : Word) (k : Nat) : (w.getLsbD k).toNat = w.toNat / 2 ^ k % 2 :=
  Nat.toNat_testBit w.toNat k

/-- The fields of any word, put back in their places, give the word: no two overlap, so the or is their sum. -/
theorem fields_or_eq (op : Word) :
    (Opcode.args op <<< 6) ||| ((Opcode.usesAlu op).toNat <<< 5) ||| ((Opcode.setsPointer op).toNat <<< 4) |||
      (Opcode.identifier op).toNat = op.toNat := by
  rw [args_eq_div, usesAlu_eq_getLsbD, setsPointer_eq_getLsbD, identifier_toNat, getLsbD_toNat, getLsbD_toNat,
    Nat.or_assoc, Nat.or_assoc, ← Nat.shiftLeft_add_eq_or_of_lt (i := 4) (by omega),
    ← Nat.shiftLeft_add_eq_or_of_lt (i := 5) (by omega), ← Nat.shiftLeft_add_eq_or_of_lt (i := 6) (by omega)]
  omega

/-- The opcodes of the table are distinct, so the rows before a row are passed over and it is the one found for its opcode. -/
theorem lookup_of_mem {r : Row} (hr : r ∈ operationTable) : lookup r.opcode = some r := by
  have hdistinct : operationTable.Pairwise (fun p q => p.opcode ≠ q.opcode) := by decide
  obtain ⟨before, after, htable⟩ := List.append_of_mem hr
  rw [htable] at hdistinct
  obtain ⟨-, -, hbefore⟩ := List.pairwise_append.mp hdistinct
  refine List.find?_eq_some_iff_append.mpr ⟨beq_self_eq_true _, before, after, htable, fun q hq => ?_⟩
  rw [Bool.not_eq_true', beq_eq_false_iff_ne]
  exact hbefore q hq r List.mem_cons_self

/-- Settles O5: the descriptor found for a row is its own (`lookup_of_mem`), and its fields are the opcode's
(`fields_or_eq`). -/
theorem descriptorReencodes : Obligations.DescriptorReencodes := by
  intro r hr
  refine ⟨r.descriptor, ?_, rfl, rfl, rfl, args_eq_div _, usesAlu_eq_getLsbD _, setsPointer_eq_getLsbD _,
    identifier_toNat _, fields_or_eq _⟩
  rw [getDescriptor, lookup_of_mem hr, Option.map_some]

end Proofs

end Sys2Proof
end

section
/-! PROOFS. The sequencer (spec/40_sequencer.md): the step (R83, R85 .. R92), its stops (R94, R180, R187), START, STOP and RUN
(R81, R82, R84, R207), and the ALU's dispatch by identifier (R96, R130, R131). -/

namespace Sys2Proof

namespace Proofs

open Machine Laws

/-! ## The step (R83, R85) -/

theorem step_stopped {s : State} (h : s.runState = .stopped) : step s = .next s := by
  simp only [step, h]

/-- An instruction whose words stand from the pc on is the one fetched: decoding them gives it back (`decode_encode`). -/
theorem fetch_of_placed {i : Instr} {s : State} (h : Placed i s) : fetchInstr s = .ok i := by
  obtain ⟨rest, hwords⟩ := wordsFrom_of_stored s maxWords s.pc (encode i) (encode_length_le i) h
  simp only [fetchInstr, hwords, decode_encode]

/-- Settles O7: the placed instruction is fetched (`fetch_of_placed`), and a running core runs what it fetches. -/
theorem stepRunsDecodedInstruction : Obligations.StepRunsDecodedInstruction := by
  intro i s hs hp
  rw [step_running hs, runCycle_of_fetch (fetch_of_placed hp)]

/-- Settles O8: the step of a stopped core is the state itself. -/
theorem stepWhileStoppedHasNoEffect : Obligations.StepWhileStoppedHasNoEffect := fun _ => step_stopped

/-! ## How a step ends (R92, R180) -/

theorem exec_answers_next (i : Instr) (s : State) : ∃ t, exec i s = .next t := by
  rcases exec_ends i s with ⟨c, -, h⟩ | ⟨u, -, h⟩
  · exact ⟨_, h⟩
  · exact ⟨_, h⟩

/-- Settles O11: an instruction ends in a fault or completes (`exec_ends`), a fault of the fetch is a next state too, and a
stopped core stays as it is. -/
theorem everyStepAnswersNext : Obligations.EveryStepAnswersNext := by
  refine ⟨exec_answers_next, fun s => ?_⟩
  cases hs : s.runState with
  | stopped => exact ⟨s, step_stopped hs⟩
  | running =>
    rw [step_running hs]
    cases hf : fetchInstr s with
    | error c => exact ⟨_, runCycle_of_fault hf⟩
    | ok i => rw [runCycle_of_fetch hf]; exact exec_answers_next i s

theorem fetch_cause_isFault {s : State} {c : Cause} (h : fetchInstr s = .error c) : c.reason.isFault = true := by
  rcases fetch_cause h with ⟨hr, -⟩ | ⟨hr, -, -⟩
  · rw [hr]; rfl
  · rw [hr]; rfl

/-- Settles O12: a fault, of the fetch or of the instruction, is `raiseFault` of the state before the step, and of the execute
steps only HALT's changes the run state or the halt record (`executes_run`). -/
theorem stopsArePrecise : Obligations.StopsArePrecise := by
  intro s t hs h
  have hfault {c : Cause} (hc : c.reason.isFault = true) (ht : t = s.raiseFault c) :
      ∃ (reason : HaltReason) (info : Nat), reason.isFault = true ∧
        t = { s with runState := .stopped, haltReason := reason, haltInfo := some info } :=
    ⟨c.reason, c.info, hc, ht⟩
  rcases step_next h with ⟨hstop, -⟩ | ⟨-, c, hf, ht⟩ | ⟨-, i, -, hx⟩
  · cases hs.symm.trans hstop
  · exact .inr (.inr (hfault (fetch_cause_isFault hf) ht))
  · rcases exec_next hx with ⟨c, hc, ht⟩ | ⟨u, hu, rfl⟩
    · exact .inr (.inr (hfault (raisedBy_isFault hc) ht))
    · rcases executes_run hu with ⟨-, rfl⟩ | ⟨hrun, hreason, hinfo⟩
      · exact .inr (.inl (advance_stopped rfl))
      · exact .inl ⟨(advance_runState u _).trans (hrun.trans hs), (advance_haltReason u _).trans hreason,
          (advance_haltInfo u _).trans hinfo⟩

/-! ## The advance (R91) -/

/-- Where an execute step sets the pointer: to the word at SP, or to a register named by the one operand, or past the
operand of a conditional jump that is not taken. -/
theorem executes_target {i : Instr} {s u : State} (h : Executes i s u) (hp : Opcode.setsPointer i.opcode = true) :
    (i = .ret ∧ u.pc = (s.readWord s.sp.toNat).toNat) ∨
    (∃ (a : Word) (ra : RegIdx), a.toNat = ra.val ∧ i.operands = [a] ∧
      (u.pc = (u.readReg ra).toNat ∨ isConditionalJump i = true ∧ u.pc = s.pc + 2)) := by
  cases i
  case ret => subst h; exact .inl ⟨rfl, rfl⟩
  case call | jmp => obtain ⟨ra, ha, rfl⟩ := h; exact .inr ⟨_, ra, ha, rfl, .inl rfl⟩
  case jeq | jne | jgt | jlt | jle | jge =>
    obtain ⟨ra, ha, rfl | rfl⟩ := h
    · exact .inr ⟨_, ra, ha, rfl, .inl rfl⟩
    · exact .inr ⟨_, ra, ha, rfl, .inr ⟨rfl, rfl⟩⟩
  case iret | int => exact h.elim
  all_goals simp [Instr.opcode] at hp

/-- Settles O10: a fault keeps the pc, HALT's execute step keeps it, and after any other the advance goes on from the pc it
was or leaves the target that was set (`executes_target`). -/
theorem sequentialAdvance : Obligations.SequentialAdvance := by
  intro i s t hs h
  rcases exec_next h with ⟨c, -, rfl⟩ | ⟨u, hu, rfl⟩
  · exact ⟨nofun, nofun, fun _ => rfl⟩
  rw [advance_runState]
  refine ⟨fun hr hp => ?_, fun _ hp => ?_, fun hr => ?_⟩
  · rcases executes_pc hu with ⟨-, hpc⟩ | ⟨hset, -⟩
    · rw [advance_pc hr hp, hpc]
    · cases hp.symm.trans hset
  · rw [advance_setsPointer hp]
    exact executes_target hu hp
  · rcases executes_run hu with ⟨-, rfl⟩ | ⟨hrun, -, -⟩
    · rw [advance_stopped rfl, stop_pc]
    · cases hr.symm.trans (hrun.trans hs)

/-! ## The ALU by identifier (R96, R130, R131) -/

/-- The instructions of one operand whose opcode has the ALU marker. -/
theorem oneOperandAlu_cases {i : Instr} {a : Word} (hu : Opcode.usesAlu i.opcode = true) (ho : i.operands = [a]) :
    i = .inc a ∨ i = .dec a ∨ i = .not a := by
  cases i <;> cases ho
  case inc => exact .inl rfl
  case dec => exact .inr (.inl rfl)
  case not => exact .inr (.inr rfl)
  all_goals simp [Instr.opcode] at hu

/-- Settles O45: for each ALU instruction the identifier selects (`dispatch_add` and the like) the function its own meaning
applies; DIVIDE and MODULO by the divisor, 0 or not. -/
theorem aluDispatchByIdentifier : Obligations.AluDispatchByIdentifier := by
  constructor
  · intro i a ra s hu ho ha b
    rcases oneOperandAlu_cases hu ho with rfl | rfl | rfl <;> simp only [Instr.opcode]
    · exact ⟨_, by rw [identifier_inc, dispatch_inc], withReg_of_eq ha s _⟩
    · exact ⟨_, by rw [identifier_dec, dispatch_dec], withReg_of_eq ha s _⟩
    · exact ⟨_, by rw [identifier_not, dispatch_not], withReg_of_eq ha s _⟩
  · intro i a b ra rb s hu ho ha hb
    cases i
    case add | sub | mul | and | or | xor | shl | shr =>
      cases ho
      simp only [Instr.opcode, identifier_add, identifier_sub, identifier_mul, identifier_and, identifier_or, identifier_xor,
        identifier_shl, identifier_shr, dispatch_add, dispatch_sub, dispatch_mul, dispatch_and, dispatch_or, dispatch_xor,
        dispatch_shl, dispatch_shr]
      exact aluBinary_of_eq s _ _ ha hb
    case div | mod =>
      cases ho
      simp only [Instr.opcode, identifier_div, identifier_mod, dispatch_div, dispatch_mod]
      by_cases hz : s.readReg rb = 0
      · rw [if_pos hz]
        exact aluDivide_of_zero s _ _ (ha ▸ ra.isLt) hb hz
      · rw [if_neg hz]
        exact aluDivide_of_eq s _ _ ha hb hz
    case cmp =>
      cases ho
      rw [Instr.opcode, identifier_cmp, dispatch_cmp]
      exact execCmp_of_eq s ha hb
    case ldi => simp [Instr.opcode] at hu
    all_goals cases ho

/-! ## HALT, START and STOP (R81, R82, R94) -/

theorem execHlt_eq (s : State) : exec .hlt s = .next (s.stop .halt none) :=
  congrArg Host.Outcome.next (advance_stopped rfl)

/-- Settles O25: HALT is the stop alone (`execHlt_eq`); START keeps the pc and memory, so the step after it runs the same HALT,
whose stop leaves the state START came from. -/
theorem haltStops : Obligations.HaltStops := by
  refine ⟨rfl, execHlt_eq, fun s hs hp => ⟨s.stop .halt none, ?_, rfl, rfl, ?_⟩⟩
  · exact (stepRunsDecodedInstruction .hlt s hs hp).trans (execHlt_eq s)
  · exact (stepRunsDecodedInstruction .hlt (s.stop .halt none).start rfl hp).trans (execHlt_eq _)

theorem stopExternally_of_running {s : State} (h : s.runState = .running) :
    s.stopExternally = s.stop .externalStop none := by
  simp only [State.stopExternally, h]

theorem stopExternally_of_stopped {s : State} (h : s.runState = .stopped) : s.stopExternally = s := by
  simp only [State.stopExternally, h]

/-- Settles O52: START and STOP, each in the two run states. -/
theorem startAndStop : Obligations.StartAndStop := fun _ =>
  ⟨fun h => ⟨start_of_stopped h, stopExternally_of_stopped h⟩,
    fun h => ⟨start_of_running h, stopExternally_of_running h⟩⟩

/-! ## RUN (R84, R207) -/

/-- A state that the step answers with itself stays, for any number of run-cycles. -/
theorem cycles_of_fixed {s : State} (h : step s = .next s) (n : Nat) : cycles n s = .next s := by
  induction n with
  | zero => rfl
  | succ n ih => simp only [cycles, h, ih]

/-- Run-cycles go on from the state that the first of them answered. -/
theorem cycles_add {n : Nat} {s t : State} (k : Nat) (h : cycles n s = .next t) : cycles (n + k) s = cycles k t := by
  induction n generalizing s with
  | zero => cases h; rw [Nat.zero_add]
  | succ n ih =>
    rw [Nat.succ_add]
    simp only [cycles] at h ⊢
    split at h
    · exact ih h
    · cases h
    · cases h

/-- Once the core has stopped, more run-cycles answer the same state. -/
theorem cycles_of_le {n m : Nat} {s t : State} (hnm : n ≤ m) (h : cycles n s = .next t) (ht : t.runState = .stopped) :
    cycles m s = .next t := by
  obtain ⟨k, rfl⟩ := Nat.exists_eq_add_of_le hnm
  rw [cycles_add k h, cycles_of_fixed (step_stopped ht)]

/-- Two states a RUN can return with are both what the longer count of run-cycles answers. -/
theorem runEnds_unique {s t u : State} (ht : RunEnds s t) (hu : RunEnds s u) : t = u := by
  obtain ⟨n, hn, htstop⟩ := ht
  obtain ⟨m, hm, hustop⟩ := hu
  have hmax := cycles_of_le (Nat.le_max_left n m) hn htstop
  rw [cycles_of_le (Nat.le_max_right n m) hm hustop] at hmax
  cases hmax
  rfl

theorem placed_start {i : Instr} {s : State} (h : Placed i s) : Placed i s.start := by
  intro k hk
  rw [start_pc, start_readWord]
  exact h k hk

/-- A running core at a JMP to its own address answers its step with the same state. -/
theorem step_self_jmp {a : Word} {ra : RegIdx} {s : State} (hs : s.runState = .running) (ha : a.toNat = ra.val)
    (hp : Placed (.jmp a) s) (hself : (s.readReg ra).toNat = s.pc) : step s = .next s := by
  have hexec : exec (.jmp a) s = .next (s.setPc (s.readReg ra).toNat) :=
    jump_of_eq s Opcode.jmp (fun _ => true) ha jmp_fields.2.2
  rw [stepRunsDecodedInstruction _ s hs hp, hexec, hself]
  rfl

/-- Settles O55: the state of a stop is the one every longer count answers (`runEnds_unique`), and a JMP to its own address is
a running state that its step does not change (`step_self_jmp`). -/
theorem runReturnsAtMostOnce : Obligations.RunReturnsAtMostOnce := by
  refine ⟨fun s t u => runEnds_unique, fun a ra s ha hp hself t ⟨n, hn, hstop⟩ => ?_⟩
  have hfixed : step s.start = .next s.start :=
    step_self_jmp (start_runState s) ha (placed_start hp) (by rw [start_readReg, start_pc]; exact hself)
  rw [runFor, cycles_of_fixed hfixed] at hn
  cases hn
  cases (start_runState s).symm.trans hstop

end Proofs

end Sys2Proof
end

section
/-! PROOFS. Immediate load, and the law of PUSH and POP (spec/41_data_and_stack.md R100, R102). -/

namespace Sys2Proof

namespace Proofs

open Machine Laws

/-! ## PUSH then POP (R102) -/

/-- Settles O29: the word POP reads at SP is the one PUSH stored there (O27, O28), its decrement undoes PUSH's increment modulo
256, and between them the two instructions write only SP and x[b]. -/
theorem pushThenPopRestores : Obligations.PushThenPopRestores := by
  intro a b ra rb s ha hb hra hrb hs
  obtain ⟨-, hpushRule, -, -⟩ := pushStoresAboveStackPointer
  obtain ⟨-, hpopRule, -, -⟩ := popReadsAtStackPointer
  obtain ⟨t, hpush, htsp, hstored, -, htregs, htpc, -, -, htrun, -, -⟩ := hpushRule a ra s ha hs
  obtain ⟨u, hpop, hother, -, hupc, huframe⟩ := hpopRule b rb t hb (htrun.trans hs)
  obtain ⟨hpopped, husp⟩ := hother hrb
  rw [if_neg hra] at hstored
  have hsp : u.sp = s.sp := by
    have hlt := s.sp.isLt
    exact BitVec.eq_of_toNat_eq (by omega)
  refine ⟨t, u, hpush, hpop, hpopped.trans hstored, hsp, fun j hj => ?_, by omega⟩
  by_cases hjsp : j = RegIdx.sp
  · rw [hjsp]
    exact hsp
  · calc u.readReg j
      _ = t.readReg j := huframe.regs j (by simpa [hjsp] using hj)
      _ = s.readReg j := htregs j (by simpa using hjsp)

/-! ## LOAD_IMMEDIATE (R100) -/

theorem execLdi_of_running {a : Word} {ra : RegIdx} {s : State} (imm : Word) (ha : a.toNat = ra.val)
    (hs : s.runState = .running) : exec (.ldi a imm) s = .next ((s.writeReg ra imm).setPc (s.pc + 3)) :=
  (execLdi_of_eq s imm ha).trans (congrArg _ (advance_running hs ldi_fields.2.2))

/-- Settles O26: the one register written reads as the immediate, and what LOAD_IMMEDIATE keeps is the frame of that write and
of the advance (`execLdi_of_running`). -/
theorem loadImmediate : Obligations.LoadImmediate := by
  refine ⟨fun _ _ => rfl, fun a imm ra s ha hs => ?_, fun a imm s ha => withReg_of_ge ha s _,
    operandReadFaults_of (i := .ldi 0 0) rfl rfl rfl⟩
  refine ⟨_, execLdi_of_running imm ha hs, readReg_writeReg_same s ra imm, rfl, fun j hj => ?_,
    rfl, fun _ => rfl, rfl, rfl, rfl, rfl⟩
  exact readReg_writeReg_ne s imm (List.ne_of_not_mem_cons hj)

end Proofs

end Sys2Proof
end

section
/-! PROOFS. The law of CALL and RETURN_FROM_CALL (spec/42_subroutine.md R111). -/

namespace Sys2Proof

namespace Proofs

open Machine Laws

/-- Settles O32: RETURN_FROM_CALL takes the stack word as the pc and undoes CALL's increment of SP modulo 256 (O31), and that
word is the masked return address (O30): `call_site + 2` itself up to 253, and 0 at 254 (conflict C11). -/
theorem callThenReturnGoesBack : Obligations.CallThenReturnGoesBack := by
  intro a s t u ha hs hcall hu husp hstack
  obtain ⟨-, hcallRule, -, -⟩ := callStoresReturnAddress
  obtain ⟨-, hretRule, -⟩ := returnTakesPointerFromStack
  obtain ⟨t', hcall', htsp, hstored, -⟩ := hcallRule a ⟨a.toNat, ha⟩ s rfl hs
  cases hcall.symm.trans hcall'
  obtain ⟨v, hret, hvpc, hvsp, -⟩ := hretRule u hu
  have hreturn : v.pc = (s.pc + 2) % 256 := by rw [hvpc, hstack, hstored]
  have hsp : v.sp = s.sp := by
    have hlt := s.sp.isLt
    rw [husp, htsp] at hvsp
    exact BitVec.eq_of_toNat_eq (by omega)
  exact ⟨v, hret, hsp, fun _ => by omega, fun _ => by omega⟩

end Proofs

end Sys2Proof
end

section
/-! PROOFS. Output: PRINT_NUMBER and PRINT_ALPHA (spec/43_output.md R120 .. R122). -/

namespace Sys2Proof

namespace Proofs

open Machine Laws

/-! ## PRINT_NUMBER and PRINT_ALPHA (R121, R122) -/

theorem execPrn_of_running {a : Word} {ra : RegIdx} {s : State} (ha : a.toNat = ra.val) (hs : s.runState = .running) :
    exec (.prn a) s = .next ((s.emit .number (s.readReg ra)).setPc (s.pc + 2)) :=
  (execPrn_of_eq s ha).trans (congrArg _ (advance_running hs prn_fields.2.2))

theorem execPra_of_running {a : Word} {ra : RegIdx} {s : State} (ha : a.toNat = ra.val) (hs : s.runState = .running) :
    exec (.pra a) s = .next ((s.emit .alpha (s.readReg ra)).setPc (s.pc + 2)) :=
  (execPra_of_eq s ha).trans (congrArg _ (advance_running hs pra_fields.2.2))

/-- Every word is a code point, U+0000 .. U+00FF: all of them lie below the surrogates (R122). -/
theorem isValidChar_word (v : Word) : v.toNat.isValidChar := by
  have hlt := v.isLt
  exact .inl (by omega)

/-- Settles O33: each instruction is its `emit` and the advance by 2 (`execPrn_of_running`, `execPra_of_running`), which keep
everything but the history and the pc; an ALPHA event has a character because every word is a code point. -/
theorem printSendsOneEvent : Obligations.PrintSendsOneEvent := by
  refine ⟨fun _ => rfl, fun _ => rfl, fun a ra s ha hs => ?_,
    fun a s ha => withReg_of_ge ha s _, fun a s ha => withReg_of_ge ha s _,
    operandReadFaults_of (i := .prn 0) rfl rfl rfl, operandReadFaults_of (i := .pra 0) rfl rfl rfl,
    by decide, by decide, fun v => ?_⟩
  · exact ⟨_, _, execPrn_of_running ha hs, execPra_of_running ha hs, rfl, rfl, rfl, rfl, rfl, rfl,
      fun _ _ => rfl, fun _ _ => rfl, fun _ => rfl, fun _ => rfl, ⟨rfl, rfl, rfl⟩, ⟨rfl, rfl, rfl⟩⟩
  · exact ⟨Char.ofNatAux v.toNat (isValidChar_word v), congrArg (fun c => [c]) (dif_pos (isValidChar_word v)), rfl⟩

end Proofs

end Sys2Proof
end

section
/-! PROOFS. The ALU instructions (spec/44_alu.md R130 .. R146). -/

namespace Sys2Proof

namespace Proofs

open Machine Laws

/-! ## The functions as arithmetic on unsigned values (R131, R132) -/

theorem aluInc_toNat (x : Word) : (Alu.inc x).toNat = (x.toNat + 1) % 256 := wm_natCast_toNat (x.toNat + 1)

theorem aluDec_toNat (x : Word) : (Alu.dec x).toNat = (x.toNat + 255) % 256 := by
  have h := wm_toInt ((x.toNat : Int) - 1)
  rw [Alu.dec]
  omega

theorem aluNot_toNat (x : Word) : (Alu.not x).toNat = 255 - x.toNat := by
  have h := wm_toInt (0xFF - (x.toNat : Int))
  have hx := x.isLt
  rw [Alu.not]
  omega

/-- `wm(0xFF - A)` is the complement of each bit (decision D15). -/
theorem aluNot_eq (x : Word) : Alu.not x = ~~~x := by
  apply BitVec.eq_of_toNat_eq
  rw [aluNot_toNat, BitVec.toNat_not]

theorem aluAdd_toNat (x y : Word) : (Alu.add x y).toNat = (x.toNat + y.toNat) % 256 := wm_natCast_toNat (x.toNat + y.toNat)

theorem aluSub_toNat (x y : Word) :
    (Alu.sub x y).toNat = if y.toNat ≤ x.toNat then x.toNat - y.toNat else 256 + x.toNat - y.toNat := by
  have h := wm_toInt ((x.toNat : Int) - y.toNat)
  have hx := x.isLt
  have hy := y.isLt
  rw [Alu.sub]
  split <;> omega

theorem aluMul_toNat (x y : Word) : (Alu.mul x y).toNat = x.toNat * y.toNat % 256 := wm_natCast_toNat (x.toNat * y.toNat)

/-- A quotient is never above the dividend, so nothing is masked off. -/
theorem aluDiv_toNat (x y : Word) : (Alu.div x y).toNat = x.toNat / y.toNat :=
  (wm_natCast_toNat _).trans (Nat.mod_eq_of_lt (Nat.lt_of_le_of_lt (Nat.div_le_self _ _) x.isLt))

/-- R132's formula `A - B * (A div B)` is the remainder. -/
theorem aluMod_toNat (x y : Word) : (Alu.mod x y).toNat = x.toNat - y.toNat * (x.toNat / y.toNat) := by
  rw [← Nat.mod_eq_sub_mul_div]
  exact (wm_natCast_toNat _).trans (Nat.mod_eq_of_lt (Nat.lt_of_le_of_lt (Nat.mod_le _ _) x.isLt))

theorem aluAnd_toNat (x y : Word) : (Alu.and x y).toNat = x.toNat &&& y.toNat := by
  rw [Alu.and, andMask_eq, BitVec.toNat_and]

theorem aluOr_toNat (x y : Word) : (Alu.or x y).toNat = x.toNat ||| y.toNat := by
  rw [Alu.or, orMask_eq, BitVec.toNat_or]

theorem aluXor_toNat (x y : Word) : (Alu.xor x y).toNat = x.toNat ^^^ y.toNat := by
  rw [Alu.xor, xorMask_eq, BitVec.toNat_xor]

/-- From an amount of 8 on, the factor is a multiple of 256. -/
theorem aluShl_toNat (x y : Word) :
    (Alu.shl x y).toNat = if y.toNat < 8 then x.toNat * 2 ^ y.toNat % 256 else 0 := by
  rw [Alu.shl, wm_natCast_toNat, Nat.shiftLeft_eq]
  split
  · rfl
  · next h =>
    have hdvd : 2 ^ 8 ∣ 2 ^ y.toNat := Nat.pow_dvd_pow 2 (Nat.not_lt.mp h)
    exact Nat.mod_eq_zero_of_dvd (Nat.dvd_mul_left_of_dvd hdvd x.toNat)

/-- From an amount of 8 on, the divisor is above every word. -/
theorem aluShr_toNat (x y : Word) : (Alu.shr x y).toNat = if y.toNat < 8 then x.toNat / 2 ^ y.toNat else 0 := by
  have hx := x.isLt
  rw [Alu.shr, wm_natCast_toNat, Nat.shiftRight_eq_div_pow,
    Nat.mod_eq_of_lt (Nat.lt_of_le_of_lt (Nat.div_le_self _ _) hx)]
  split
  · rfl
  · next h => exact Nat.div_eq_of_lt (Nat.lt_of_lt_of_le hx (Nat.pow_le_pow_right (by decide) (Nat.not_lt.mp h)))

/-! ## The rules of the shapes (R130) -/

/-- The write of a result and the advance leave alone all but that register and the pc. -/
theorem frame_writeReg_advance (s : State) (r : RegIdx) (v op : Word) : Frame [r] s ((s.writeReg r v).advance op) where
  regs j hj := (advance_readReg _ op j).trans (readReg_writeReg_ne s v (List.ne_of_not_mem_cons hj))
  flags := advance_fl _ op
  memory := advance_readWord _ op
  out := advance_out _ op
  run := ⟨advance_runState _ op, advance_haltReason _ op, advance_haltInfo _ op⟩

/-- Two register operands are checked in their order (R89, R188), whatever the instruction does with the registers. -/
theorem registersFault_of {mk : Word → Word → Instr} {k : State → RegIdx → RegIdx → Host.Outcome State Fault Refusal}
    (hexec : ∀ a b s, exec (mk a b) s = withRegs a b s (k s)) : RegistersFault mk := by
  refine fun a b s => ⟨fun ha => ?_, fun ha hb => ?_⟩
  · exact (hexec a b s).trans (withReg_of_ge ha s _)
  · exact (hexec a b s).trans ((withReg_of_eq (r := ⟨a.toNat, ha⟩) rfl s _).trans (withReg_of_ge hb s _))

/-- The rule of a one-operand ALU instruction, from its encoding, its opcode's fields and the function on unsigned values. -/
theorem unaryAluRule_of {mk : Word → Instr} {op : Word} {g : Word → Word} {f : Nat → Nat}
    (hexec : ∀ a s, exec (mk a) s = aluUnary op g a s) (henc : ∀ a, encode (mk a) = [op, a])
    (hfields : Opcode.args op = 1 ∧ Opcode.usesAlu op = true ∧ Opcode.setsPointer op = false)
    (hh : hasHandler (mk 0) = true) (hg : ∀ x, (g x).toNat = f x.toNat) : UnaryAluRule mk op f := by
  obtain ⟨hop, hoperands⟩ := List.cons.inj (henc 0)
  obtain ⟨hargs, -, hp⟩ := hfields
  refine ⟨henc, fun a ra s ha hs => ?_, fun a s ha => ?_, operandReadFaults_of hh hop (congrArg List.length hoperands)⟩
  · refine ⟨_, (hexec a s).trans (aluUnary_of_eq s op g ha), ?_, ?_, frame_writeReg_advance s ra _ op⟩
    · rw [advance_readReg, readReg_writeReg_same, hg]
    · rw [advance_pc (s := s.writeReg ra _) hs hp, hargs, writeReg_pc]
  · exact (hexec a s).trans (withReg_of_ge ha s _)

/-- The rule of a two-operand ALU instruction, as `unaryAluRule_of`. `k` is its execute step once the registers are known, the
write of a result where it has one. -/
theorem binaryAluRule_of {mk : Word → Word → Instr} {op : Word} {g : Word → Word → Word} {runs : Nat → Prop}
    {f : Nat → Nat → Nat} {k : State → RegIdx → RegIdx → Host.Outcome State Fault Refusal}
    (hexec : ∀ a b s, exec (mk a b) s = withRegs a b s (k s)) (henc : ∀ a b, encode (mk a b) = [op, a, b])
    (hfields : Opcode.args op = 2 ∧ Opcode.usesAlu op = true ∧ Opcode.setsPointer op = false)
    (hh : hasHandler (mk 0 0) = true)
    (hk : ∀ s ra rb, runs (s.readReg rb).toNat → k s ra rb = complete op (s.writeReg ra (g (s.readReg ra) (s.readReg rb))))
    (hg : ∀ x y, (g x y).toNat = f x.toNat y.toNat) : BinaryAluRule mk op runs f := by
  obtain ⟨hop, hoperands⟩ := List.cons.inj (henc 0 0)
  obtain ⟨hargs, -, hp⟩ := hfields
  refine ⟨henc, fun a b ra rb s ha hb hs hr => ?_, registersFault_of hexec,
    operandReadFaults_of hh hop (congrArg List.length hoperands)⟩
  refine ⟨_, (hexec a b s).trans ((withRegs_of_eq ha hb s _).trans (hk s ra rb hr)), ?_, ?_, frame_writeReg_advance s ra _ op⟩
  · rw [advance_readReg, readReg_writeReg_same, hg]
  · rw [advance_pc (s := s.writeReg ra _) hs hp, hargs, writeReg_pc]

/-- The rule of an instruction of the shape `aluBinary`, which has a result for every x[b]. -/
theorem aluBinaryRule_of {mk : Word → Word → Instr} {op : Word} {g : Word → Word → Word} {f : Nat → Nat → Nat}
    (hexec : ∀ a b s, exec (mk a b) s = aluBinary op g a b s) (henc : ∀ a b, encode (mk a b) = [op, a, b])
    (hfields : Opcode.args op = 2 ∧ Opcode.usesAlu op = true ∧ Opcode.setsPointer op = false)
    (hh : hasHandler (mk 0 0) = true) (hg : ∀ x y, (g x y).toNat = f x.toNat y.toNat) :
    BinaryAluRule mk op (fun _ => True) f :=
  binaryAluRule_of hexec henc hfields hh (fun _ _ _ _ => rfl) hg

/-- The rule of an instruction of the shape `aluDivide`: the divisor 0 stops it, and no other divisor does. -/
theorem aluDivideRule_of {mk : Word → Word → Instr} {op : Word} {g : Word → Word → Word} {f : Nat → Nat → Nat}
    (hexec : ∀ a b s, exec (mk a b) s = aluDivide op g a b s) (henc : ∀ a b, encode (mk a b) = [op, a, b])
    (hfields : Opcode.args op = 2 ∧ Opcode.usesAlu op = true ∧ Opcode.setsPointer op = false)
    (hh : hasHandler (mk 0 0) = true) (hg : ∀ x y, (g x y).toNat = f x.toNat y.toNat) :
    BinaryAluRule mk op (fun b => b ≠ 0) f ∧ DivisorFaults mk := by
  refine ⟨binaryAluRule_of hexec henc hfields hh (fun s ra rb hne => ?_) hg, fun a b rb s ha hb hz => ?_⟩
  · have hdivisor : s.readReg rb ≠ 0 := fun hz => hne (congrArg BitVec.toNat hz)
    rw [checkDivisor_ne hdivisor, orFault_ok]
  · exact (hexec a b s).trans (aluDivide_of_zero s op g ha hb hz)

/-! ## INCREMENT, DECREMENT and BITWISE_NOT (R133 .. R135) -/

/-- Settles O34: the rule of the one-operand shape, with `aluInc_toNat` and `aluDec_toNat`. -/
theorem incrementAndDecrementWrap : Obligations.IncrementAndDecrementWrap :=
  ⟨unaryAluRule_of (fun _ _ => rfl) (fun _ => rfl) inc_fields rfl aluInc_toNat,
    unaryAluRule_of (fun _ _ => rfl) (fun _ => rfl) dec_fields rfl aluDec_toNat⟩

/-- Settles O35: the rule of the one-operand shape; bit by bit, in any state, because `wm(0xFF - A)` is the complement. -/
theorem notComplementsEveryBit : Obligations.NotComplementsEveryBit := by
  refine ⟨unaryAluRule_of (fun _ _ => rfl) (fun _ => rfl) not_fields rfl aluNot_toNat, fun a ra s t ha h k hk => ?_⟩
  cases h.symm.trans (aluUnary_of_eq s Opcode.not Alu.not ha)
  rw [advance_readReg, readReg_writeReg_same, aluNot_eq, BitVec.getLsbD_not, decide_eq_true hk, Bool.true_and]

/-! ## The arithmetic of two operands (R136 .. R140) -/

/-- Settles O36: the rule of the two-operand shape, with `aluAdd_toNat`. -/
theorem addWraps : Obligations.AddWraps :=
  aluBinaryRule_of (fun _ _ _ => rfl) (fun _ _ => rfl) add_fields rfl aluAdd_toNat

/-- Settles O37: the rule of the two-operand shape, with `aluSub_toNat`. -/
theorem subtractWraps : Obligations.SubtractWraps :=
  aluBinaryRule_of (fun _ _ _ => rfl) (fun _ _ => rfl) sub_fields rfl aluSub_toNat

/-- Settles O38: the rule of the two-operand shape, with `aluMul_toNat`. -/
theorem multiplyKeepsLowByte : Obligations.MultiplyKeepsLowByte :=
  aluBinaryRule_of (fun _ _ _ => rfl) (fun _ _ => rfl) mul_fields rfl aluMul_toNat

/-- Settles O39: the rule of the dividing shape, with `aluDiv_toNat`. -/
theorem divideFloorsOrFaults : Obligations.DivideFloorsOrFaults :=
  aluDivideRule_of (fun _ _ _ => rfl) (fun _ _ => rfl) div_fields rfl aluDiv_toNat

/-- Settles O40: the rule of the dividing shape, with `aluMod_toNat`. -/
theorem moduloRemainderOrFaults : Obligations.ModuloRemainderOrFaults :=
  aluDivideRule_of (fun _ _ _ => rfl) (fun _ _ => rfl) mod_fields rfl aluMod_toNat

/-! ## COMPARE (R141) -/

/-- With bits 7:3 of FL clear, COMPARE leaves the flag of the order and no other bit. -/
theorem compare_of_lt_eight (x y : Word) {fl : Word} (h : fl.toNat < 8) :
    Flags.compare x y fl = if x.toNat < y.toNat then 0b100 else if x.toNat = y.toNat then 0b001 else 0b010 := by
  have hclear : fl &&& 0xF8 = 0#8 := by
    revert fl
    decide
  rw [compare_eq, hclear, BitVec.zero_or]

theorem execCmp_of_running {a b : Word} {ra rb : RegIdx} {s : State} (ha : a.toNat = ra.val) (hb : b.toNat = rb.val)
    (hs : s.runState = .running) :
    exec (.cmp a b) s = .next ((s.setFl (Flags.compare (s.readReg ra) (s.readReg rb) s.fl)).setPc (s.pc + 3)) :=
  (execCmp_of_eq s ha hb).trans (congrArg _ (advance_running hs cmp_fields.2.2))

/-- Settles O41: the result is the one flag of `compare_of_lt_eight`, and what COMPARE keeps is the frame of the write of FL and
of the advance. -/
theorem compareLeavesOneFlag : Obligations.CompareLeavesOneFlag := by
  refine ⟨fun _ _ => rfl, fun a b ra rb s ha hb hs hfl => ?_, registersFault_of fun _ _ _ => rfl,
    operandReadFaults_of (i := .cmp 0 0) rfl rfl rfl⟩
  refine ⟨_, execCmp_of_running ha hb hs, ?_, rfl, fun _ _ => rfl, fun _ => rfl, rfl, rfl, rfl, rfl⟩
  rw [setPc_fl, setFl_fl, compare_of_lt_eight _ _ hfl]

/-! ## The bitwise operations and the shifts (R142 .. R146) -/

/-- Settles O42: the rule of the two-operand shape, with `aluAnd_toNat`, `aluOr_toNat` and `aluXor_toNat`. -/
theorem bitwiseOperations : Obligations.BitwiseOperations :=
  ⟨aluBinaryRule_of (fun _ _ _ => rfl) (fun _ _ => rfl) and_fields rfl aluAnd_toNat,
    aluBinaryRule_of (fun _ _ _ => rfl) (fun _ _ => rfl) or_fields rfl aluOr_toNat,
    aluBinaryRule_of (fun _ _ _ => rfl) (fun _ _ => rfl) xor_fields rfl aluXor_toNat⟩

/-- Settles O43: the rule of the two-operand shape, with `aluShl_toNat`. -/
theorem shiftLeftByWholeWord : Obligations.ShiftLeftByWholeWord :=
  aluBinaryRule_of (fun _ _ _ => rfl) (fun _ _ => rfl) shl_fields rfl aluShl_toNat

/-- Settles O44: the rule of the two-operand shape, with `aluShr_toNat`. -/
theorem shiftRightByWholeWord : Obligations.ShiftRightByWholeWord :=
  aluBinaryRule_of (fun _ _ _ => rfl) (fun _ _ => rfl) shr_fields rfl aluShr_toNat

end Proofs

end Sys2Proof
end

section
/-! PROOFS. The jumps on no flag and on one flag (spec/45_jumps.md R161, R162, R164, R165). -/

namespace Sys2Proof

namespace Proofs

open Machine Laws

/-- Settles O46: the rule of a jump (`jumpRule_of`) whose condition is constantly true (R161). -/
theorem jumpAlwaysTaken : Obligations.JumpAlwaysTaken :=
  jumpRule_of (cond := fun _ => true) (fun _ _ => rfl) (fun _ => rfl) jmp_fields.2.2 rfl fun _ => iff_of_true rfl trivial

/-- Settles O47: the rule of a jump (`jumpRule_of`) with each single-flag query of R29, which is its flag's bit of R27. -/
theorem jumpsOnOneFlag : Obligations.JumpsOnOneFlag := by
  refine ⟨jumpRule_of (cond := Flags.eq) (fun _ _ => rfl) (fun _ => rfl) jeq_fields.2.2 rfl fun fl => ?_,
    jumpRule_of (cond := Flags.gt) (fun _ _ => rfl) (fun _ => rfl) jgt_fields.2.2 rfl fun fl => ?_,
    jumpRule_of (cond := Flags.lt) (fun _ _ => rfl) (fun _ => rfl) jlt_fields.2.2 rfl fun fl => ?_⟩
  · rw [flagsEq_eq_getLsbD]
  · rw [flagsGt_eq_getLsbD]
  · rw [flagsLt_eq_getLsbD]

end Proofs

end Sys2Proof
end

section
/-! PROOFS. Faults (spec/60_exceptions.md R180 .. R188): the causes of a stop, one by one in the order in which a run-cycle meets
them, and what a stop keeps. -/

namespace Sys2Proof

namespace Proofs

open Machine Laws

/-! ## Raising a fault (R180) -/

/-- Settles O22: a fault is a stop, which writes the run state and the halt record and no other field. -/
theorem faultStopsAndKeepsState : Obligations.FaultStopsAndKeepsState := fun _ _ _ =>
  ⟨rfl, rfl, rfl, fun _ => rfl, rfl, rfl, fun _ => rfl, rfl⟩

/-! ## Unlisted words (R69, R183) -/

theorem contains_iff (op : Word) : contains op = true ↔ ∃ r ∈ operationTable, r.opcode = op := by
  simp only [contains, lookup, List.find?_isSome, beq_iff_eq]

/-- The listed words are the opcodes of the table, each once: its rows have distinct opcodes. -/
theorem listedWords_perm :
    ((List.range 256).filter fun n => contains (BitVec.ofNat 8 n)).Perm (operationTable.map fun r => r.opcode.toNat) := by
  refine (List.perm_ext_iff_of_nodup (List.nodup_range.filter _) (by decide)).mpr fun n => ?_
  simp only [List.mem_filter, List.mem_range, contains_iff, List.mem_map]
  constructor
  · rintro ⟨hn, r, hr, hop⟩
    exact ⟨r, hr, by rw [hop, BitVec.toNat_ofNat, Nat.mod_eq_of_lt hn]⟩
  · rintro ⟨r, hr, rfl⟩
    exact ⟨r.opcode.isLt, r, hr, (BitVec.ofNat_toNat 8 r.opcode).symm⟩

theorem step_unlisted {s : State} (hs : s.runState = .running) (hpc : s.pc < 256) (hc : contains (s.readWord s.pc) = false) :
    step s = .next (s.raiseFault ⟨.unknownOpcode, (s.readWord s.pc).toNat⟩) := by
  rw [step_running hs, runCycle_of_fault (fetch_unlisted hpc hc)]

/-- Settles O6: 34 of the 256 words are listed (`listedWords_perm`), which leaves 222, and the fetch faults at each of them. -/
theorem unlistedWordHalts : Obligations.UnlistedWordHalts := by
  refine ⟨?_, fun s => step_unlisted⟩
  have hlisted := listedWords_perm.length_eq
  have hall := List.length_eq_countP_add_countP (fun n => contains (BitVec.ofNat 8 n)) (l := List.range 256)
  simp only [List.countP_eq_length_filter, decide_not, Bool.decide_eq_true] at hall
  rw [List.length_map] at hlisted
  rw [List.length_range, hlisted] at hall
  exact Nat.add_left_cancel hall.symm

/-! ## Opcodes without a handler (R88, R95, R184) -/

theorem exec_unimplemented {i : Instr} (hh : hasHandler i = false) (s : State) : exec i s = unimplemented i.opcode s := by
  cases i
  case iret | int | ld | st => rfl
  all_goals cases hh

theorem step_unimplemented {i : Instr} {s : State} (hs : s.runState = .running) (hpc : s.pc < 256)
    (hw : s.readWord s.pc = i.opcode) (hh : hasHandler i = false) :
    step s = .next (s.raiseFault ⟨.unimplementedOperation, i.opcode.toNat⟩) := by
  rw [step_running hs, runCycle_of_fetch (fetch_unbound hpc hw hh), exec_unimplemented hh, unimplemented]

/-- Settles O23: each of the four is `unimplemented` of its opcode, and is fetched without its operands
(`step_unimplemented`). -/
theorem unimplementedOperationsHalt : Obligations.UnimplementedOperationsHalt := by
  refine ⟨fun s => ⟨rfl, rfl, rfl, rfl⟩, fun s n hn hs hpc hw => ?_⟩
  simp only [List.mem_cons, List.not_mem_nil, or_false] at hn
  rcases hn with rfl | rfl | rfl | rfl
  · exact step_unimplemented (i := .iret) hs hpc hw rfl
  · exact step_unimplemented (i := .int) hs hpc hw rfl
  · exact step_unimplemented (i := .ld) hs hpc hw rfl
  · exact step_unimplemented (i := .st) hs hpc hw rfl

/-! ## Operand words that are missing (R89, R182) -/

theorem step_past_end {i : Instr} {s : State} (hs : s.runState = .running) (hpc : s.pc < 256)
    (hw : s.readWord s.pc = i.opcode) (hh : hasHandler i = true) (hl : 256 < s.pc + (encode i).length) :
    step s = .next (s.raiseFault (outOfRange 256)) := by
  rw [step_running hs, runCycle_of_fault (fetch_past_end hpc hw hh hl)]

/-! ## Register operands that name no register (R25, R185) -/

theorem namesReg_eq_false_iff (w : Word) : namesReg w = false ↔ 8 ≤ w.toNat := by
  rw [← Bool.not_eq_true, namesReg_iff, Nat.not_lt]

/-- The first word of a list that names no register. -/
def firstUnnamed (ws : List Word) : Option Word := ws.find? fun v => !namesReg v

theorem firstUnnamed_cons {a w : Word} {ws : List Word} (h : firstUnnamed (a :: ws) = some w) :
    (8 ≤ a.toNat ∧ w = a) ∨ (a.toNat < 8 ∧ firstUnnamed ws = some w) := by
  rw [firstUnnamed, List.find?_cons] at h
  split at h
  · next ha => exact .inl ⟨by simpa [namesReg_eq_false_iff] using ha, (Option.some.inj h).symm⟩
  · next ha => exact .inr ⟨by simpa using ha, h⟩

theorem withReg_of_firstUnnamed {a w : Word} (h : firstUnnamed [a] = some w) (s : State)
    (k : RegIdx → Host.Outcome State Fault Refusal) :
    withReg a s k = .next (s.raiseFault ⟨.registerOutOfRange, w.toNat⟩) := by
  rcases firstUnnamed_cons h with ⟨ha, rfl⟩ | ⟨-, hnil⟩
  · exact withReg_of_ge ha s k
  · cases hnil

theorem withRegs_of_firstUnnamed {a b w : Word} (h : firstUnnamed [a, b] = some w) (s : State)
    (k : RegIdx → RegIdx → Host.Outcome State Fault Refusal) :
    withRegs a b s k = .next (s.raiseFault ⟨.registerOutOfRange, w.toNat⟩) := by
  rcases firstUnnamed_cons h with ⟨ha, rfl⟩ | ⟨ha, hb⟩
  · exact withReg_of_ge ha s _
  · exact (withReg_of_eq (r := ⟨a.toNat, ha⟩) rfl s _).trans (withReg_of_firstUnnamed hb s _)

/-- Every handler checks its register operands first, in their order (R89). -/
theorem exec_of_firstUnnamed {i : Instr} {w : Word} (h : firstUnnamed i.regOperands = some w) (s : State) :
    exec i s = .next (s.raiseFault ⟨.registerOutOfRange, w.toNat⟩) := by
  cases i
  case nop | hlt | ret | iret | int | ld | st => cases h
  case push | pop | prn | pra | call | jmp | jeq | jne | jgt | jlt | jle | jge | inc | dec | not | ldi =>
    exact withReg_of_firstUnnamed h s _
  all_goals exact withRegs_of_firstUnnamed h s _

/-! ## A divisor of 0 (R186) -/

theorem exec_of_zero_divisor {i : Instr} {a b : Word} {rb : RegIdx} {s : State} (hi : i = .div a b ∨ i = .mod a b)
    (hwf : i.wf = true) (hb : b.toNat = rb.val) (hz : s.readReg rb = 0) :
    exec i s = .next (s.raiseFault ⟨.divisionByZero, rb.val⟩) := by
  rcases hi with rfl | rfl
  all_goals
    obtain ⟨ra, -, ha, -⟩ := registers_of_wf hwf rfl
    exact aluDivide_of_zero s _ _ (ha ▸ ra.isLt) hb hz

/-! ## No fault (R188) -/

/-- No divisor of the instruction is 0. -/
def DivisorNonzero (i : Instr) (s : State) : Prop :=
  ∀ (a b : Word) (rb : RegIdx), i = .div a b ∨ i = .mod a b → b.toNat = rb.val → s.readReg rb ≠ 0

theorem sameRun_advance {s u : State} (op : Word) (h : SameRun s u) : SameRun s (u.advance op) :=
  let ⟨hrun, hreason, hinfo⟩ := h
  ⟨(advance_runState u op).trans hrun, (advance_haltReason u op).trans hreason, (advance_haltInfo u op).trans hinfo⟩

/-- An instruction with a handler whose registers exist and whose divisor is not 0 leaves the run state and the halt record
alone, unless it is HALT. -/
theorem exec_sameRun {i : Instr} {s : State} (hh : hasHandler i = true) (hwf : i.wf = true) (hd : DivisorNonzero i s)
    (hhlt : i ≠ .hlt) : ∃ t, exec i s = .next t ∧ SameRun s t := by
  have hsame : SameRun s s := ⟨rfl, rfl, rfl⟩
  cases i
  case hlt => exact absurd rfl hhlt
  case iret | int | ld | st => cases hh
  case nop => exact ⟨_, rfl, sameRun_advance _ hsame⟩
  case ret => exact ⟨_, execRet_eq s, hsame⟩
  case push =>
    obtain ⟨ra, ha⟩ := register_of_wf hwf rfl
    exact ⟨_, execPush_of_eq s ha, sameRun_advance _ hsame⟩
  case pop =>
    obtain ⟨ra, ha⟩ := register_of_wf hwf rfl
    exact ⟨_, execPop_of_eq s ha, sameRun_advance _ hsame⟩
  case call =>
    obtain ⟨ra, ha⟩ := register_of_wf hwf rfl
    exact ⟨_, execCall_of_eq s ha, hsame⟩
  case jmp =>
    obtain ⟨ra, ha⟩ := register_of_wf hwf rfl
    exact ⟨_, jump_of_eq s Opcode.jmp (fun _ => true) ha jmp_fields.2.2, hsame⟩
  case jeq | jne | jgt | jlt | jle | jge =>
    obtain ⟨ra, ha⟩ := register_of_wf hwf rfl
    exact ⟨_, jump_of_eq s _ _ ha (by simp), hsame⟩
  case prn | pra | ldi | inc | dec | not =>
    obtain ⟨ra, ha⟩ := register_of_wf hwf rfl
    exact ⟨_, withReg_of_eq ha s _, sameRun_advance _ hsame⟩
  case div a b | mod a b =>
    obtain ⟨ra, rb, ha, hb⟩ := registers_of_wf hwf rfl
    exact ⟨_, aluDivide_of_eq s _ _ ha hb (hd a b rb (by simp) hb), sameRun_advance _ hsame⟩
  all_goals
    obtain ⟨ra, rb, ha, hb⟩ := registers_of_wf hwf rfl
    exact ⟨_, withRegs_of_eq ha hb s _, sameRun_advance _ hsame⟩

/-- Settles O9: the first four clauses are the steps that end before the operands are read. The last three are about the instruction
whose words stand at the pc (O7): its registers are checked before anything else (`exec_of_firstUnnamed`), then the divisor, and
past both checks only HALT stops (`exec_sameRun`). -/
theorem faultPriority : Obligations.FaultPriority := by
  intro s hs
  refine ⟨step_outside hs, step_unlisted hs, fun i => step_unimplemented hs, fun i => step_past_end hs,
    fun i w hp h => ?_, fun i a b rb hi hp hwf hb hz => ?_, fun i hp hh hwf hd => ?_⟩
  all_goals rw [stepRunsDecodedInstruction i s hs hp]
  · exact exec_of_firstUnnamed h s
  · exact exec_of_zero_divisor hi hwf hb hz
  · by_cases hhlt : i = .hlt
    · subst hhlt
      exact ⟨_, execHlt_eq s, .inr ⟨rfl, rfl, rfl, rfl⟩⟩
    · obtain ⟨t, ht, hrun, hreason, hinfo⟩ := exec_sameRun hh hwf hd hhlt
      exact ⟨t, ht, .inl ⟨hrun.trans hs, hreason, hinfo⟩⟩

end Proofs

end Sys2Proof
end

section
/-! PROOFS. LOAD and the boot (spec/70_reset_and_hazards.md R200 .. R203). -/

namespace Sys2Proof

namespace Proofs

open Machine Laws

/-! ## The words LOAD stores (R202) -/

theorem readWord_storeWords_of_lt (s : State) (addr : Nat) {ws : List Word} {k : Nat} (hk : k < ws.length)
    (hend : addr + k < 256) : (s.storeWords addr ws).readWord (addr + k) = ws[k] := by
  rw [State.readWord, storeWords_memory, read_writeFrom ws _ _ _ hend, if_pos (Nat.le_add_right addr k),
    Nat.add_sub_cancel_left, List.getElem?_eq_getElem hk, Option.getD_some]

theorem readWord_storeWords_of_le (s : State) {addr k : Nat} {ws : List Word} (hk : addr + ws.length ≤ k) :
    (s.storeWords addr ws).readWord k = s.readWord k := by
  rw [State.readWord, storeWords_memory, State.readWord]
  by_cases hm : k < Config.memSize
  · have hpast : ws[k - addr]? = none := List.getElem?_eq_none (by omega)
    rw [read_writeFrom ws _ _ _ hm, hpast, Option.getD_none, ite_self]
  · exact read_writeFrom_outside ws _ _ _ (Nat.le_of_not_lt hm)

theorem hostLoad_of_le {words : List Int} (h : words.length ≤ 256) (s : State) :
    hostLoad words s = .next (s.storeWords 0 (words.map wm)) := if_pos h

theorem hostLoad_of_lt {words : List Int} (h : 256 < words.length) (s : State) :
    hostLoad words s = .refused (.imageTooLong words.length) := if_neg (Nat.not_le_of_lt h)

/-- Settles O53: a list that fits is stored masked from address 0 (`hostLoad_of_le`), so an address below its length reads its
word there and one from its length on reads what it read before. -/
theorem loadWritesFromZero : Obligations.LoadWritesFromZero := by
  refine fun words s => ⟨fun hl => ⟨_, hostLoad_of_le hl s, rfl, fun k hk => ?_, fun addr ha => ?_⟩,
    fun hl => hostLoad_of_lt hl s⟩
  · have hk' : k < (words.map wm).length := by rwa [List.length_map]
    have hread := readWord_storeWords_of_lt s 0 hk' (by omega)
    rwa [Nat.zero_add, List.getElem_map] at hread
  · exact readWord_storeWords_of_le s (by rwa [Nat.zero_add, List.length_map])

/-! ## The boot (R201, R203) -/

theorem map_wm_toNat (ws : List Word) : (ws.map fun w => (w.toNat : Int)).map wm = ws := by
  simp only [List.map_map, Function.comp_def, wm_word, List.map_id']

theorem placed_storeWords {i : Instr} (rest : List Word) {s : State} (h : s.pc + (encode i).length ≤ 256) :
    Placed i (s.storeWords s.pc (encode i ++ rest)) := by
  intro k hk
  rw [storeWords_pc]
  have hend : s.pc + k < 256 := by omega
  have hlen : k < (encode i ++ rest).length := List.length_append ▸ Nat.lt_add_right _ hk
  exact ⟨hend, (readWord_storeWords_of_lt s s.pc hlen hend).trans (List.getElem_append_left hk)⟩

/-- Settles O54: RESET leaves the pc at 0, LOAD stores the image's words there unchanged (`map_wm_toNat`), so the instruction is
placed at the pc of the started core, and O7 says what its step is. -/
theorem bootRunsFirstInstruction : Obligations.BootRunsFirstInstruction := by
  intro i rest s t hl h
  rw [hostLoad_of_le (by rwa [List.length_map]), map_wm_toNat] at h
  cases h
  have hfits : (encode i).length ≤ 256 := by
    rw [List.length_append] at hl
    omega
  have hplaced : Placed i ((hostReset s).storeWords 0 (encode i ++ rest)) :=
    placed_storeWords (s := hostReset s) rest ((Nat.zero_add _).trans_le hfits)
  exact ⟨start_pc _, stepRunsDecodedInstruction i _ (start_runState _) (placed_start hplaced)⟩

end Proofs

end Sys2Proof
end
